-- ==== Sys2Proof/Word.lean ====
section
/-! DEFINITION. The byte, and the plain records of bytes the other files speak about (spec R11, R15, R29, R61). -/

namespace Sys2Proof

/-- A byte (R11): an unsigned value 0 to 255; bit 7 is the most significant bit.
Addition on it wraps modulo 256, `^^^` is the exclusive or, `~~~` is `not`, and unary minus is `neg` (R13). -/
abbrev Byte := BitVec 8

/-- One operand value of a request (R29, R57): a byte, or a byte sequence of any length. -/
inductive Operand where
  | byte (x : Byte)
  | seq (w : List Byte)
deriving DecidableEq, Repr

/-- A request as it stands on the request port (R29, R55, R61): the 3-bit selector `opsel[2:0]` and then the operand
values.  The spec gives an operand no bit layout beyond being a byte or a byte sequence (R61). -/
structure RawRequest where
  opsel : BitVec 3
  operands : List Operand
deriving DecidableEq, Repr

/-- A Frame value (R15): address, command and data.  The checksum is not a field of it, so two Frames are equal when
these three are (D24).  That `data` has at most 255 bytes is `Frame.wellFormed`. -/
structure Frame where
  address : Byte
  command : Byte
  data : List Byte
deriving DecidableEq, Repr

end Sys2Proof
end

