-- ==== Sys2Proof/Config.lean ====
section
/-! DEFINITION. The three checksum parameters an instance of the block is built with (spec R7; 92_eei_decisions.md D2, D3, D4). -/

namespace Sys2Proof

/-- `CK_ALG` (R7, R64). -/
inductive CkAlg where
  | add8
  | xor8
deriving DecidableEq, Repr

/-- `CK_FINAL` (R7, R64): no final complement, bitwise NOT, negation modulo 256. -/
inductive CkFinal where
  | none
  | ones
  | twos
deriving DecidableEq, Repr

/-- `CK_WINDOW` (R7, R66). -/
inductive CkWindow where
  | addrToData
  | stxToData
  | addrToEtx
  | stxToEtx
deriving DecidableEq, Repr

/-- The parameters of one instance (R7).  They are fixed when the block is instantiated and no operation reads them
back or writes them (R27).  The spec leaves their values OPEN (D2 to D4): a statement about the block holds for every
value of them, or names the values it assumes (R19). -/
structure CkParams where
  alg : CkAlg
  final : CkFinal
  window : CkWindow
deriving DecidableEq, Repr

/-- The spec's own default values (R7).  DESIGN CHOICE (log entry 1): `State.reset` is the instance built with these;
`State.init` is the instance built with any. -/
def CkParams.defaults : CkParams := { alg := .add8, final := .none, window := .addrToData }

end Sys2Proof
end

