-- ==== Sys2Proof/Machine/Operands.lean ====
section
/-! DEFINITION. The operand forms of each selector (spec R29, R55, R57), and the operands a bare selector word stands for. -/

namespace Sys2Proof

/-- The two kinds of operand (R57, R61). -/
inductive OperandKind where
  | byte
  | seq
deriving DecidableEq, Repr

namespace Machine

/-- The kind of an operand value. -/
def kindOf : Operand → OperandKind
  | .byte _ => .byte
  | .seq _ => .seq

/-- The operands each selector takes, in the order of the tables of R29 and R55.
`none` for the reserved selector, whose operands are ignored (R55, R56). -/
def operandKinds (opsel : BitVec 3) : Option (List OperandKind) :=
  match opsel.toNat with
  | 0 => some [.seq]
  | 1 => some [.seq, .byte]
  | 2 => some [.byte, .byte, .seq]
  | 3 => some [.seq]
  | 4 => some [.byte]
  | 5 => some []
  | 6 => some []
  | _ => none

/-- The operand of a kind whose bits are all zero: the byte 0x00, the empty sequence.
DESIGN CHOICE (log entry 5), used only for the opcode table's bare words. -/
def zeroOperand : OperandKind → Operand
  | .byte => .byte 0x00
  | .seq => .seq []

/-- All operands of a selector with every bit zero. -/
def zeroOperands (opsel : BitVec 3) : List Operand :=
  match operandKinds opsel with
  | some ks => ks.map zeroOperand
  | none => []

end Machine

end Sys2Proof
end

