-- ==== Sys2Proof/Syntax.lean ====
section
/-! DEFINITION. The operations of the block: one constructor per row of spec/opcode_table.json (spec R55, R63). -/

namespace Sys2Proof

/-- A request with its operands read (R29, R55).  Every byte and every byte sequence is a legal operand (R56, R57). -/
inductive Instr where
  /-- `000` CK_COMPUTE (R67). -/
  | ckCompute (w : List Byte)
  /-- `001` CK_VERIFY (R68). -/
  | ckVerify (w : List Byte) (expected : Byte)
  /-- `010` ENCODE (R70). -/
  | encode (address command : Byte) (data : List Byte)
  /-- `011` DECODE (R74). -/
  | decode (b : List Byte)
  /-- `100` FEED_BYTE (R85). -/
  | feedByte (x : Byte)
  /-- `101` CLOSE (R89). -/
  | close
  /-- `110` RESET (R91). -/
  | reset
  /-- `111`, the reserved selector (R56); its operands are ignored. -/
  | reserved
deriving DecidableEq, Repr

/-- The row's mnemonic in spec/opcode_table.json. -/
def Instr.mnemonic : Instr → String
  | .ckCompute _ => "CK_COMPUTE"
  | .ckVerify _ _ => "CK_VERIFY"
  | .encode _ _ _ => "ENCODE"
  | .decode _ => "DECODE"
  | .feedByte _ => "FEED_BYTE"
  | .close => "CLOSE"
  | .reset => "RESET"
  | .reserved => "RESERVED"

end Sys2Proof
end

