-- ==== Sys2Proof/WellFormed.lean ====
section
/-! DEFINITION. When a request, an instruction and a Frame are well formed (spec R15, R29, R55 to R57). -/

namespace Sys2Proof

/-- A request on the port is well formed when its operands are of the number and the kinds its selector takes (R29,
R55).  Under the reserved selector the operands are ignored, so any will do (R55, R56). -/
def RawRequest.wellFormed (r : RawRequest) : Bool :=
  match Machine.operandKinds r.opsel with
  | some ks => decide (r.operands.map Machine.kindOf = ks)
  | none => true

/-- Every instruction is well formed: "The operand fields of a request have no reserved values: every byte and every
byte sequence is a legal operand" (R56), of any length (R57).  A length a field cannot hold is an error of the
operation, not of the encoding (R56). -/
def Instr.wellFormed : Instr → Bool
  | .ckCompute _ => true
  | .ckVerify _ _ => true
  | .encode _ _ _ => true
  | .decode _ => true
  | .feedByte _ => true
  | .close => true
  | .reset => true
  | .reserved => true

/-- A Frame holds at most 255 bytes of data (R15). -/
def Frame.wellFormed (f : Frame) : Bool := decide (f.data.length ≤ 255)

end Sys2Proof
end

