-- ==== Sys2Proof/Decode.lean ====
section
/-! DEFINITION. Reading a request off the request port and writing one, from the selector codes of spec R55. -/

namespace Sys2Proof

/-- Why a request on the port stands for no operation.  Raised by `decode`; safe: the spec gives such a request no
meaning, since a request is a selector and THAT operation's operands (R29). -/
inductive DecodeError where
  /-- The operands are not of the number and kinds the named operation takes. -/
  | wrongOperands (mnemonic : String)
deriving DecidableEq, Repr

/-- Reading a request (R55), total on every selector and every operand list.  The reserved selector is decided from
the selector alone, before any operand is read (R56, R104). -/
def decode (r : RawRequest) : Except DecodeError Instr :=
  match r.opsel.toNat with
  | 0 =>
    match r.operands with
    | [.seq w] => .ok (.ckCompute w)
    | _ => .error (.wrongOperands "CK_COMPUTE")
  | 1 =>
    match r.operands with
    | [.seq w, .byte e] => .ok (.ckVerify w e)
    | _ => .error (.wrongOperands "CK_VERIFY")
  | 2 =>
    match r.operands with
    | [.byte a, .byte c, .seq d] => .ok (.encode a c d)
    | _ => .error (.wrongOperands "ENCODE")
  | 3 =>
    match r.operands with
    | [.seq b] => .ok (.decode b)
    | _ => .error (.wrongOperands "DECODE")
  | 4 =>
    match r.operands with
    | [.byte x] => .ok (.feedByte x)
    | _ => .error (.wrongOperands "FEED_BYTE")
  | 5 =>
    match r.operands with
    | [] => .ok .close
    | _ => .error (.wrongOperands "CLOSE")
  | 6 =>
    match r.operands with
    | [] => .ok .reset
    | _ => .error (.wrongOperands "RESET")
  | _ => .ok .reserved

/-- Writing a request (R55, R61): "its `opsel` bits followed by its operand values".  A reserved request is written
without operands. -/
def encode : Instr → RawRequest
  | .ckCompute w => ⟨0b000, [.seq w]⟩
  | .ckVerify w e => ⟨0b001, [.seq w, .byte e]⟩
  | .encode a c d => ⟨0b010, [.byte a, .byte c, .seq d]⟩
  | .decode b => ⟨0b011, [.seq b]⟩
  | .feedByte x => ⟨0b100, [.byte x]⟩
  | .close => ⟨0b101, []⟩
  | .reset => ⟨0b110, []⟩
  | .reserved => ⟨0b111, []⟩

/-- The request that a bare word of spec/opcode_table.json stands for: the table numbers only the selector, its bits
2..0 (mask 7), and every operand bit is zero (log entry 5).  Bits at or above `nbits` are zero. -/
def requestOfTableWord (nbits w : Nat) : RawRequest :=
  { opsel := BitVec.ofNat 3 (w % 2 ^ nbits), operands := Machine.zeroOperands (BitVec.ofNat 3 (w % 2 ^ nbits)) }

/-- The instruction the decoder reads from a word of spec/opcode_table.json. -/
def decodeTableWord (nbits w : Nat) : Option Instr :=
  match decode (requestOfTableWord nbits w) with
  | .ok i => some i
  | .error _ => none

end Sys2Proof
end

