-- ==== Sys2Proof/Machine/State.lean ====
section
/-! DEFINITION. What the block answers, why a step can stop, and the state of the block with its two ports
(spec R20 to R34, R96, R110). -/

namespace Sys2Proof.Machine

/-- The two errors of DECODE (R74), which are also the two reasons of a `Reject` event (R31). -/
inductive CodecError where
  | frameMalformed
  | checksumMismatch
deriving DecidableEq, Repr

/-- The codes an `err` response carries (R30, R96). -/
inductive Err where
  | payloadTooLarge
  | frameMalformed
  | checksumMismatch
  | illegalOp
deriving DecidableEq, Repr

/-- An event of the reassembler (R31). -/
inductive Event where
  /-- A Frame decoded from the stream. -/
  | frameOut (f : Frame)
  /-- A frame-sized run of bytes that DECODE refused and the reassembler discarded. -/
  | reject (e : CodecError)
  /-- CLOSE discarded `n` bytes of an unfinished frame (R100). -/
  | incomplete (n : Nat)
deriving DecidableEq, Repr

/-- A response (R30): `ok` of a byte, a Boolean, a byte sequence or a Frame; `err` of a code; an event list. -/
inductive Response where
  | okByte (v : Byte)
  | okBool (v : Bool)
  | okBytes (v : List Byte)
  | okFrame (f : Frame)
  | err (e : Err)
  | events (es : List Event)
deriving DecidableEq, Repr

/-- The machine has NO fault: the block has no trap mechanism (R105), every operation has a response, and an `err`
response leaves the block taking the next request normally (R106).  So this type has no constructor. -/
inductive Fault where
deriving DecidableEq, Repr

/-- Why a step gives no next state. -/
inductive Refusal where
  /-- Raised by `exec` for an instruction without a meaning; no arm of this model raises it.  Safe. -/
  | notModelled (mnemonic : String)
  /-- Raised by `step` when the host puts a second request on the port before the response to the first: "Two
  overlapping requests have no meaning in this spec; a model refuses them" (R114; 93_implementation_defined.md I9).
  Safe. -/
  | overlappingRequests
  /-- Raised by `step` when the request's operands are not those of its selector (R29 gives such a request no
  meaning).  Safe (log entry 4). -/
  | malformedRequest (e : DecodeError)
deriving DecidableEq, Repr

/-- The block and its ports.
* `buf` (R21) is the block's only architectural state (R20), oldest byte first.  `phase` is a function of it (R22,
  Machine/Flags.lean), not a field.
* `params` are the instance's checksum parameters (R27, R34), written by nothing.
* `arrivals` is the request port over time (R29, R32; log entry 2): one entry per transaction slot, holding the
  requests the host has on the port in that slot.  `[]` is a slot without a request, `[r]` is the lawful one request
  at a time, and more than one are overlapping requests (R114).
* `response` is the response port (R30; log entry 3): the response given in the step just taken, if that step took a
  request.  The block never reads it (R28). -/
structure State where
  buf : List Byte
  params : CkParams
  arrivals : List (List RawRequest)
  response : Option Response
deriving DecidableEq, Repr

/-- The block right after it is instantiated with parameters `p` (R110): an empty buffer, nothing pending. -/
def State.init (p : CkParams) : State := { buf := [], params := p, arrivals := [], response := none }

/-- The block after reset, for the instance built with the spec's default parameters (R7, R110; log entry 1). -/
def State.reset : State := State.init CkParams.defaults

end Sys2Proof.Machine
end

