-- ==== Sys2Proof/Machine/Ops.lean ====
section
/-! DEFINITION. The named operations every meaning is built from: the sentinels, reading a byte sequence by offset
(spec R8, R10, R12, R36), writing the buffer, and answering a request (R14, R30). -/

namespace Sys2Proof.Machine

/-- `STX` (R8). -/
def stx : Byte := 0x02

/-- `ETX` (R8). -/
def etx : Byte := 0x03

/-- `CR` (R8). -/
def cr : Byte := 0x0D

/-- `BUF_CAP` (R10): the buffer never holds more bytes than this. -/
def bufCap : Nat := 262

/-- `s[i]` (R12), which the rules use only where `i < |s|`. -/
def byteAt (s : List Byte) (i : Nat) : Byte := s.getD i 0

/-- `s[i..j)` (R12). -/
def slice (s : List Byte) (i j : Nat) : List Byte := (s.take j).drop i

/-- The LENGTH byte of a candidate frame, at offset 3 (R36), as an unsigned number (R49). -/
def lenField (s : List Byte) : Nat := (byteAt s 3).toNat

/-- The DATA bytes of a candidate frame, at offsets 4 to 3 + L (R36). -/
def dataField (s : List Byte) : List Byte := slice s 4 (4 + lenField s)

/-- `7 + L`, the number of bytes of the frame that a candidate's LENGTH announces (R36, R49). -/
def frameLen (s : List Byte) : Nat := 7 + lenField s

/-- `buf <- v` (R14). -/
def setBuf (v : List Byte) (s : State) : State := { s with buf := v }

/-- Putting a response on the response port (R14, R30). -/
def respond (r : Response) (s : State) : State := { s with response := some r }

/-- Every operation ends by answering: the request is done and the block takes the next one (R30, R106). -/
def answer (r : Response) (s : State) : Host.Outcome State Fault Refusal := .next (respond r s)

/-- `raise E` (R14).  The block has no trap mechanism (R105): an error is a response, it is precise, it changes no
state of the block, and the next request is taken normally (R105, R106).  This is the one operation that reports an
error. -/
def raiseErr (e : Err) (s : State) : Host.Outcome State Fault Refusal := answer (.err e) s

end Sys2Proof.Machine
end

