-- ==== Sys2Proof/Machine/Flags.lean ====
section
/-! DEFINITION. The block has no flags (spec R25).  Its only status is the phase, a function of the buffer (R22), and
its report codes are numbered for a 3-bit response field (R96). -/

namespace Sys2Proof.Machine

/-- The four phases the block rests in (R22). -/
inductive Phase where
  | seekingStx
  | readingHeader
  | readingData
  | readingTrailer
deriving DecidableEq, Repr

/-- The invariant at rest (R23). -/
def restBuf (buf : List Byte) : Bool :=
  decide (buf = [] ∨ (byteAt buf 0 = stx ∧ (buf.length < 4 ∨ buf.length < frameLen buf)))

/-- `phase(buf)` (R22), "defined only on buffers that meet rule R23": `none` on any other buffer. -/
def phase (buf : List Byte) : Option Phase :=
  if restBuf buf then
    if buf.length = 0 then some .seekingStx
    else if buf.length < 4 then some .readingHeader
    else if buf.length < 4 + lenField buf then some .readingData
    else some .readingTrailer
  else none

/-- The outcomes the block reports (R96). -/
inductive Code where
  | ok
  | payloadTooLarge
  | frameMalformed
  | checksumMismatch
  | incomplete
  | illegalOp
deriving DecidableEq, Repr

/-- The numbers of R96. -/
def Code.toBits : Code → BitVec 3
  | .ok => 0
  | .payloadTooLarge => 1
  | .frameMalformed => 2
  | .checksumMismatch => 3
  | .incomplete => 4
  | .illegalOp => 5

/-- Reading a number of R96 back; 6 and 7 are unused. -/
def Code.ofBits (n : BitVec 3) : Option Code :=
  match n.toNat with
  | 0 => some .ok
  | 1 => some .payloadTooLarge
  | 2 => some .frameMalformed
  | 3 => some .checksumMismatch
  | 4 => some .incomplete
  | 5 => some .illegalOp
  | _ => none

/-- The code of an `err` response (R96). -/
def Err.code : Err → Code
  | .payloadTooLarge => .payloadTooLarge
  | .frameMalformed => .frameMalformed
  | .checksumMismatch => .checksumMismatch
  | .illegalOp => .illegalOp

/-- DECODE returns its two errors as `err` responses (R74, R96). -/
def CodecError.toErr : CodecError → Err
  | .frameMalformed => .frameMalformed
  | .checksumMismatch => .checksumMismatch

/-- The code of a response (R96).  DEDUCED for an event list (log entry 7), whatever its events: it is a success of its
operation, "the operation itself always succeeds" (R85). -/
def Response.code : Response → Code
  | .err e => e.code
  | .okByte _ => .ok
  | .okBool _ => .ok
  | .okBytes _ => .ok
  | .okFrame _ => .ok
  | .events _ => .ok

/-- The code of an event (R96).  DEDUCED (log entry 7): R96 lists no row for `FrameOut`; it is a success. -/
def Event.code : Event → Code
  | .frameOut _ => .ok
  | .reject e => e.toErr.code
  | .incomplete _ => .incomplete

end Sys2Proof.Machine
end

