-- ==== Sys2Proof/Machine/Checksum.lean ====
section
/-! DEFINITION. The checksum calculator: `ck`, the frame window, CK_COMPUTE and CK_VERIFY (spec 40_checksum.md). -/

namespace Sys2Proof.Machine

/-- `step(acc, x)` (R64). -/
def ckStep (alg : CkAlg) (acc x : Byte) : Byte :=
  match alg with
  | .add8 => acc + x
  | .xor8 => acc ^^^ x

/-- `fold(step, 0x00, w)` (R13, R64). -/
def ckFold (alg : CkAlg) (w : List Byte) : Byte := w.foldl (ckStep alg) 0x00

/-- `fin(v)` (R64). -/
def ckFin (final : CkFinal) (v : Byte) : Byte :=
  match final with
  | .none => v
  | .ones => ~~~v
  | .twos => -v

/-- `ck(w)` (R64). -/
def ck (p : CkParams) (w : List Byte) : Byte := ckFin p.final (ckFold p.alg w)

/-- `window(a, c, L, d)` (R66). -/
def window (p : CkParams) (a c len : Byte) (d : List Byte) : List Byte :=
  match p.window with
  | .addrToData => [a, c, len] ++ d
  | .stxToData => [stx, a, c, len] ++ d
  | .addrToEtx => [a, c, len] ++ d ++ [etx]
  | .stxToEtx => [stx, a, c, len] ++ d ++ [etx]

/-- CK_COMPUTE (R67): the caller passes the window bytes, of any number; it writes no state and has no error. -/
def execCkCompute (w : List Byte) (s : State) : Host.Outcome State Fault Refusal :=
  answer (.okByte (ck s.params w)) s

/-- CK_VERIFY (R68): a mismatch is the result `ok(false)`, not an error. -/
def execCkVerify (w : List Byte) (expected : Byte) (s : State) : Host.Outcome State Fault Refusal :=
  answer (.okBool (decide (ck s.params w = expected))) s

end Sys2Proof.Machine
end

