-- ==== Sys2Proof/Machine/Codec.lean ====
section
/-! DEFINITION. The frame codec: frame shape, ENCODE and DECODE (spec R48 to R54, 41_frame_codec.md). -/

namespace Sys2Proof.Machine

/-- `shape_ok(b)` (R53). -/
def shapeOk (b : List Byte) : Bool :=
  decide (7 ≤ b.length ∧ byteAt b 0 = stx ∧ b.length = frameLen b ∧ byteAt b (4 + lenField b) = etx ∧
    byteAt b (6 + lenField b) = cr)

/-- The checksum of a frame-shaped sequence: `ck` over the window of its own fields (R50, R53). -/
def frameSum (p : CkParams) (b : List Byte) : Byte :=
  ck p (window p (byteAt b 1) (byteAt b 2) (byteAt b 3) (dataField b))

/-- `frame_ok(b)` (R53): `b` is a valid frame. -/
def frameOk (p : CkParams) (b : List Byte) : Bool :=
  shapeOk b && decide (frameSum p b = byteAt b (5 + lenField b))

/-- The bytes ENCODE lays out (R48, R70): sentinels inside `a`, `c` or `d` are copied as they are (R51). -/
def frameBytes (p : CkParams) (a c : Byte) (d : List Byte) : List Byte :=
  [stx, a, c, BitVec.ofNat 8 d.length] ++ d ++ [etx, ck p (window p a c (BitVec.ofNat 8 d.length) d), cr]

/-- The body of ENCODE (R70).  `PayloadTooLarge` comes before any byte is produced (R97). -/
def encodeFrame (p : CkParams) (a c : Byte) (d : List Byte) : Except Err (List Byte) :=
  if d.length > 255 then .error .payloadTooLarge else .ok (frameBytes p a c d)

/-- The body of DECODE (R74), check by check; the checksum is looked at only after every structural check has passed
(R75). -/
def decodeFrame (p : CkParams) (b : List Byte) : Except CodecError Frame :=
  if b.length < 7 then .error .frameMalformed
  else if byteAt b 0 ≠ stx then .error .frameMalformed
  else if b.length ≠ frameLen b then .error .frameMalformed
  else if byteAt b (4 + lenField b) ≠ etx then .error .frameMalformed
  else if byteAt b (6 + lenField b) ≠ cr then .error .frameMalformed
  else if frameSum p b ≠ byteAt b (5 + lenField b) then .error .checksumMismatch
  else .ok { address := byteAt b 1, command := byteAt b 2, data := dataField b }

/-- ENCODE (R70, R72): it checks neither `a` nor `c` against anything and writes no state. -/
def execEncode (a c : Byte) (d : List Byte) (s : State) : Host.Outcome State Fault Refusal :=
  match encodeFrame s.params a c d with
  | .ok r => answer (.okBytes r) s
  | .error e => raiseErr e s

/-- DECODE (R74): total on any byte sequence (R73); it writes no state. -/
def execDecode (b : List Byte) (s : State) : Host.Outcome State Fault Refusal :=
  match decodeFrame s.params b with
  | .ok f => answer (.okFrame f) s
  | .error e => raiseErr e.toErr s

end Sys2Proof.Machine
end

