-- ==== Sys2Proof/Machine/Reassembler.lean ====
section
/-! DEFINITION. The stream reassembler: SCAN, FEED_BYTE, CLOSE and RESET (spec 42_stream_reassembler.md). -/

namespace Sys2Proof.Machine

/-- SEEKING_STX: the bytes before the first STX are dropped, without an event (R81, R82; D9). -/
def dropNoise (s : List Byte) : List Byte := s.dropWhile (fun x => decide (x ≠ stx))

/-- How one pass of SCAN's loop ends (R82). -/
inductive Pass where
  /-- The scan returns: it needs bytes it does not have; `s` stays in the buffer. -/
  | wait (s : List Byte)
  /-- RESYNC: the byte at the ETX offset is not ETX; only the STX is dropped and the loop goes on with `s`. -/
  | resync (s : List Byte)
  /-- FRAME_COMPLETE: DECODE has answered for exactly `7 + L` bytes, which are consumed; the loop goes on with `s`. -/
  | complete (e : Event) (s : List Byte)
deriving DecidableEq, Repr

/-- The event a candidate that reached DECODE gives (R82): success and failure alike are reported (D8). -/
def candidateEvent (p : CkParams) (t : List Byte) : Event :=
  match decodeFrame p t with
  | .ok f => .frameOut f
  | .error e => .reject e

/-- What a pass does once the noise is gone (R82). -/
def passOn (p : CkParams) (s : List Byte) : Pass :=
  if s.length < 4 then .wait s
  else if s.length < frameLen s then .wait s
  else if byteAt s (4 + lenField s) ≠ etx then .resync (s.drop 1)
  else .complete (candidateEvent p (s.take (frameLen s))) (s.drop (frameLen s))

/-- One pass of SCAN's loop (R82). -/
def scanPass (p : CkParams) (s : List Byte) : Pass := passOn p (dropNoise s)

/-- SCAN's loop with a bound on its passes. -/
def scanFuel (p : CkParams) : Nat → List Byte → List Byte × List Event
  | 0, s => (s, [])
  | n + 1, s =>
    match scanPass p s with
    | .wait s' => (s', [])
    | .resync s' => scanFuel p n s'
    | .complete e s' => ((scanFuel p n s').1, e :: (scanFuel p n s').2)

/-- `SCAN(s)` (R82): the bytes left and the events produced, in stream order.  The loop ends after at most
`|s| + 1` passes (R83), so that many are allowed. -/
def scan (p : CkParams) (s : List Byte) : List Byte × List Event := scanFuel p (s.length + 1) s

/-- FEED_BYTE (R85): the scan runs to its end inside the operation (R82; D26); decode failures become events, and the
operation itself always succeeds. -/
def execFeedByte (x : Byte) (s : State) : Host.Outcome State Fault Refusal :=
  answer (.events (scan s.params (s.buf ++ [x])).2) (setBuf (scan s.params (s.buf ++ [x])).1 s)

/-- CLOSE (R89): pending bytes are reported by their number and discarded, never decoded. -/
def execClose (s : State) : Host.Outcome State Fault Refusal :=
  answer (.events (if s.buf.length > 0 then [.incomplete s.buf.length] else [])) (setBuf [] s)

/-- RESET (R91): pending bytes are discarded without a report; the parameters are not touched (R27). -/
def execReset (s : State) : Host.Outcome State Fault Refusal := answer (.events []) (setBuf [] s)

end Sys2Proof.Machine
end

