-- ==== Sys2Proof/Machine/Reserved.lean ====
section
/-! DEFINITION. The reserved selector (spec R56, R101). -/

namespace Sys2Proof.Machine

/-- A request with `opsel = 111` (R56): `err(IllegalOp)`, no state change, no event.  The next request is taken
normally (R106), so this is a next state (log entry 6). -/
def execReserved (s : State) : Host.Outcome State Fault Refusal := raiseErr .illegalOp s

end Sys2Proof.Machine
end

