-- ==== Sys2Proof/Machine/Dispatch.lean ====
section
/-! DEFINITION. One arm per operation. -/

namespace Sys2Proof.Machine

def exec (i : Instr) (s : State) : Host.Outcome State Fault Refusal :=
  match i with
  | .ckCompute w => Sys2Proof.Machine.execCkCompute w s
  | .ckVerify w e => Sys2Proof.Machine.execCkVerify w e s
  | .encode a c d => Sys2Proof.Machine.execEncode a c d s
  | .decode b => Sys2Proof.Machine.execDecode b s
  | .feedByte x => Sys2Proof.Machine.execFeedByte x s
  | .close => Sys2Proof.Machine.execClose s
  | .reset => Sys2Proof.Machine.execReset s
  | .reserved => Sys2Proof.Machine.execReserved s

end Sys2Proof.Machine
end

