-- ==== Sys2Proof/Machine/Port.lean ====
section
/-! DEFINITION. The request port: what the host has put on it in a slot, and taking a slot off it
(spec R29, R32, R114; log entry 2). -/

namespace Sys2Proof.Machine

/-- What stands on the request port in the slot a step serves. -/
inductive PortView where
  /-- No request: the block has nothing to do. -/
  | idle
  /-- The host's one request (R29). -/
  | one (r : RawRequest)
  /-- A second request before the response to the first (R114). -/
  | overlap
deriving DecidableEq, Repr

/-- Reading the present slot of the port. -/
def portView (arrivals : List (List RawRequest)) : PortView :=
  match arrivals with
  | [] => .idle
  | [] :: _ => .idle
  | [r] :: _ => .one r
  | (_ :: _ :: _) :: _ => .overlap

/-- The present slot is over. -/
def takeSlot (s : State) : State := { s with arrivals := s.arrivals.drop 1 }

/-- A slot without a request: the block does nothing and nothing is pending on the response port (R103, R115). -/
def idleSlot (s : State) : State := { takeSlot s with response := none }

/-- The host puts the request `r`, alone, on the port for the present slot. -/
def placeRequest (r : RawRequest) (s : State) : State := { s with arrivals := [r] :: s.arrivals.drop 1 }

end Sys2Proof.Machine
end

