-- ==== Sys2Proof/Machine/Step.lean ====
section
/-! DEFINITION. One step: the block serves one slot of its request port (spec R18, R29, R40, R42). -/

namespace Sys2Proof.Machine

/-- One atomic transaction (R3, R40): the request of the present slot is taken off the port, read, and run to its
response.  Without a request the block idles; overlapping requests are refused (R114). -/
def step (s : State) : Host.Outcome State Fault Refusal :=
  match portView s.arrivals with
  | .idle => .next (idleSlot s)
  | .overlap => .refused .overlappingRequests
  | .one r =>
    match decode r with
    | .ok i => exec i (takeSlot s)
    | .error e => .refused (.malformedRequest e)

/-- `s` with the request that a word of spec/opcode_table.json stands for on the request port, alone, in the slot the
next step serves. -/
def State.withFetchWord (s : State) (nbits w : Nat) : State := placeRequest (requestOfTableWord nbits w) s

end Sys2Proof.Machine
end

