-- ==== Sys2Proof/Machine/Instances.lean ====
section
/-! DEFINITION. Several instances, one per connection: the product of independent single-instance models (spec R33,
R47). -/

namespace Sys2Proof.Machine

/-- Instance `k` of several takes a step; no other instance is touched (R33). -/
def stepAt (ss : List State) (k : Fin ss.length) : Host.Outcome (List State) Fault Refusal :=
  match step (ss.get k) with
  | .next t => .next (ss.set k t)
  | .fault r => .fault r
  | .refused r => .refused r

end Sys2Proof.Machine
end

