-- ==== Sys2Proof/Machine/Program.lean ====
section
/-! DEFINITION. Programs: a program is its list of requests (spec R61), the pseudo-operations FEED and FEED_FRAME expand
to requests (R59, R60), and the requests are run in the order the host issues them (R42). -/

namespace Sys2Proof.Machine

/-- `FEED s` (R59): one FEED_BYTE per byte, in order. -/
def feed (u : List Byte) : List Instr := u.map Instr.feedByte

/-- `FEED_FRAME a, c, [d...]` (R60) on an instance with parameters `p`: ENCODE, then FEED of the bytes it returned; if
ENCODE returns an error, nothing is fed. -/
def feedFrame (p : CkParams) (a c : Byte) (d : List Byte) : List Instr :=
  match encodeFrame p a c d with
  | .ok r => .encode a c d :: feed r
  | .error _ => [.encode a c d]

/-- Running requests one at a time, in order (R42): the state after the last, and every response, in order. -/
def runRequests : List Instr → State → Host.Outcome (State × List Response) Fault Refusal
  | [], s => .next (s, [])
  | i :: is, s =>
    match exec i s with
    | .next t =>
      match runRequests is t with
      | .next (u, rs) => .next (u, t.response.toList ++ rs)
      | .fault r => .fault r
      | .refused r => .refused r
    | .fault r => .fault r
    | .refused r => .refused r

/-- The events of one response (R30). -/
def Response.eventList : Response → List Event
  | .events es => es
  | .okByte _ => []
  | .okBool _ => []
  | .okBytes _ => []
  | .okFrame _ => []
  | .err _ => []

/-- The events of a run: the concatenation of its responses' event lists, in order (R59). -/
def eventsOf (rs : List Response) : List Event := rs.flatMap Response.eventList

/-- The operations that neither read nor write the buffer (R41, R56): they may be interleaved with FEED_BYTE at any
point (R117). -/
def touchesBuf : Instr → Bool
  | .ckCompute _ => false
  | .ckVerify _ _ => false
  | .encode _ _ _ => false
  | .decode _ => false
  | .feedByte _ => true
  | .close => true
  | .reset => true
  | .reserved => false

/-- The host issues these requests, each in a slot of its own, and nothing more (R29, R32). -/
def queueRequests (is : List Instr) (s : State) : State := { s with arrivals := is.map fun i => [encode i] }

end Sys2Proof.Machine
end

