-- ==== Sys2Proof/Machine/Text.lean ====
section
/-! DEFINITION. The program syntax of spec R58 (with the pseudo-operations of R59 and R60): one request per line, every
byte in hexadecimal, and a line may end with a comment that a semicolon opens. -/

namespace Sys2Proof.Machine

/-- A line of a program. -/
inductive Line where
  /-- A line with no request: empty, blanks only, or a comment alone.  DESIGN CHOICE (log entry 9): R58 says "One request
  per line" and is silent on such a line. -/
  | blank
  | request (i : Instr)
  | feed (s : List Byte)
  | feedFrame (a c : Byte) (d : List Byte)
deriving DecidableEq, Repr

/-- The requests a line stands for on an instance with parameters `p` (R59, R60).  That a line with no request stands for
none is a DESIGN CHOICE (log entry 9). -/
def Line.expand (p : CkParams) : Line → List Instr
  | .blank => []
  | .request i => [i]
  | .feed s => Machine.feed s
  | .feedFrame a c d => Machine.feedFrame p a c d

/-- The tokens of a line. -/
inductive Token where
  | word (cs : List Char)
  | lbracket
  | rbracket
  | comma
deriving DecidableEq, Repr

/-- The word read so far, if any. -/
def flushWord (acc : List Char) : List Token := if acc = [] then [] else [.word acc]

/-- Cutting a line into tokens; a semicolon opens a comment (R58). -/
def tokenize (acc : List Char) : List Char → List Token
  | [] => flushWord acc
  | ch :: cs =>
    if ch = ';' then flushWord acc
    else if ch = ' ' then flushWord acc ++ tokenize [] cs
    else if ch = '[' then flushWord acc ++ .lbracket :: tokenize [] cs
    else if ch = ']' then flushWord acc ++ .rbracket :: tokenize [] cs
    else if ch = ',' then flushWord acc ++ .comma :: tokenize [] cs
    else tokenize (acc ++ [ch]) cs

/-- The value of a hexadecimal digit. -/
def hexDigit (ch : Char) : Option Nat :=
  if 48 ≤ ch.toNat ∧ ch.toNat ≤ 57 then some (ch.toNat - 48)
  else if 65 ≤ ch.toNat ∧ ch.toNat ≤ 70 then some (ch.toNat - 55)
  else if 97 ≤ ch.toNat ∧ ch.toNat ≤ 102 then some (ch.toNat - 87)
  else none

/-- Two hexadecimal digits. -/
def hexPair (hi lo : Char) : Option Byte :=
  match hexDigit hi, hexDigit lo with
  | some h, some l => some (BitVec.ofNat 8 (16 * h + l))
  | _, _ => none

/-- A byte: `4F` or `0x4F` (R58). -/
def hexByte : List Char → Option Byte
  | [hi, lo] => hexPair hi lo
  | ['0', 'x', hi, lo] => hexPair hi lo
  | _ => none

/-- The rest of a bracketed list, after one of its bytes. -/
def seqTail : List Token → Option (List Byte × List Token)
  | .rbracket :: ts => some ([], ts)
  | .comma :: .word cs :: ts =>
    match hexByte cs, seqTail ts with
    | some x, some (xs, rest) => some (x :: xs, rest)
    | _, _ => none
  | _ => none

/-- A bracketed list of bytes; `[]` is the empty sequence (R58). -/
def seqTokens : List Token → Option (List Byte × List Token)
  | .lbracket :: .rbracket :: ts => some ([], ts)
  | .lbracket :: .word cs :: ts =>
    match hexByte cs, seqTail ts with
    | some x, some (xs, rest) => some (x :: xs, rest)
    | _, _ => none
  | _ => none

/-- A bracketed list and nothing after it. -/
def seqOnly (ts : List Token) : Option (List Byte) :=
  match seqTokens ts with
  | some (xs, []) => some xs
  | _ => none

/-- `[b0, b1, ...], e`: the operands of CK_VERIFY (R58). -/
def seqThenByte (ts : List Token) : Option (List Byte × Byte) :=
  match seqTokens ts with
  | some (xs, [.comma, .word cs]) => (hexByte cs).map fun x => (xs, x)
  | _ => none

/-- `a, c, [d0, d1, ...]`: the operands of ENCODE and FEED_FRAME (R58, R60). -/
def twoBytesThenSeq : List Token → Option (Byte × Byte × List Byte)
  | .word a :: .comma :: .word c :: .comma :: ts =>
    match hexByte a, hexByte c, seqOnly ts with
    | some a, some c, some d => some (a, c, d)
    | _, _, _ => none
  | _ => none

/-- A single byte and nothing after it: the operand of FEED_BYTE (R58). -/
def byteOnly : List Token → Option Byte
  | [.word cs] => hexByte cs
  | _ => none

/-- Reading a line's tokens (R58).  DESIGN CHOICE (log entry 9): a line without a token (empty, blanks only, or a comment
alone) is read as a line of the program with no request, where R58 is silent. -/
def parseTokens : List Token → Option Line
  | [] => some .blank
  | .word m :: ts =>
    if m = "CK_COMPUTE".toList then (seqOnly ts).map fun w => .request (.ckCompute w)
    else if m = "CK_VERIFY".toList then (seqThenByte ts).map fun x => .request (.ckVerify x.1 x.2)
    else if m = "ENCODE".toList then (twoBytesThenSeq ts).map fun x => .request (.encode x.1 x.2.1 x.2.2)
    else if m = "DECODE".toList then (seqOnly ts).map fun b => .request (.decode b)
    else if m = "FEED_BYTE".toList then (byteOnly ts).map fun x => .request (.feedByte x)
    else if m = "CLOSE".toList ∧ ts = [] then some (.request .close)
    else if m = "RESET".toList ∧ ts = [] then some (.request .reset)
    else if m = "FEED".toList then (seqOnly ts).map .feed
    else if m = "FEED_FRAME".toList then (twoBytesThenSeq ts).map fun x => .feedFrame x.1 x.2.1 x.2.2
    else none
  | .lbracket :: _ => none
  | .rbracket :: _ => none
  | .comma :: _ => none

/-- Reading a line of a program (R58); `none` when it is not of that syntax. -/
def parseLine (cs : List Char) : Option Line := parseTokens (tokenize [] cs)

/-- A hexadecimal digit, in capitals as the spec writes them. -/
def digitChar (n : Nat) : Char := if n < 10 then Char.ofNat (48 + n) else Char.ofNat (55 + n)

/-- A byte inside a list: `4F` (R58). -/
def showByte (x : Byte) : List Char := [digitChar (x.toNat / 16), digitChar (x.toNat % 16)]

/-- A byte outside a list: `0x4F` (R58). -/
def showScalar (x : Byte) : List Char := '0' :: 'x' :: showByte x

/-- The bytes of a list after its first. -/
def showTail : List Byte → List Char
  | [] => [']']
  | x :: xs => ',' :: ' ' :: (showByte x ++ showTail xs)

/-- A list of bytes: `[00, 4F]` (R58). -/
def showSeq : List Byte → List Char
  | [] => ['[', ']']
  | x :: xs => '[' :: (showByte x ++ showTail xs)

/-- Writing a request as a line (R58).  The reserved selector has no mnemonic in R58, so it has no line. -/
def showRequest : Instr → Option (List Char)
  | .ckCompute w => some ("CK_COMPUTE".toList ++ ' ' :: showSeq w)
  | .ckVerify w e => some ("CK_VERIFY".toList ++ ' ' :: (showSeq w ++ ',' :: ' ' :: showScalar e))
  | .encode a c d =>
    some ("ENCODE".toList ++ ' ' :: (showScalar a ++ ',' :: ' ' :: (showScalar c ++ ',' :: ' ' :: showSeq d)))
  | .decode b => some ("DECODE".toList ++ ' ' :: showSeq b)
  | .feedByte x => some ("FEED_BYTE".toList ++ ' ' :: showScalar x)
  | .close => some "CLOSE".toList
  | .reset => some "RESET".toList
  | .reserved => none

end Sys2Proof.Machine
end

