-- ==== Sys2Proof/Safety.lean ====
section
/-! DEFINITION. What counts as a safe run, in the terms the statements use: the invariant between operations, a port
used as the host's duties ask, and the responses that report a mistake of the host. -/

namespace Sys2Proof.Machine

/-- An event holds only what R31 lets it hold. -/
def Event.wellFormed : Event → Bool
  | .frameOut f => f.wellFormed
  | .reject _ => true
  | .incomplete n => decide (1 ≤ n)

/-- A response holds only what R30 lets it hold: ENCODE's bytes are 7 to 262 (R9, R30). -/
def Response.wellFormed : Response → Bool
  | .okByte _ => true
  | .okBool _ => true
  | .okBytes v => decide (7 ≤ v.length ∧ v.length ≤ 262)
  | .okFrame f => f.wellFormed
  | .err _ => true
  | .events es => es.all Event.wellFormed

/-- What holds between operations: the buffer is at rest (R23) and the response port shows a response of R30's
forms, or none. -/
def State.atRest (s : State) : Bool := restBuf s.buf && s.response.all Response.wellFormed

/-- A slot of the request port used as the host's duties ask (R29, R32, R114): at most one request, with the operands
of its selector. -/
def lawfulSlot (rs : List RawRequest) : Bool := decide (rs.length ≤ 1) && rs.all RawRequest.wellFormed

/-- A host that keeps its duties on the request port. -/
def State.lawfulHost (s : State) : Bool := s.arrivals.all lawfulSlot

/-- The response reports a mistake of the host: the reserved selector (R56; 93_implementation_defined.md I8 has a model
record it as the host's error) or a payload that is too large, a "caller programming error" (R97). -/
def State.hostError (s : State) : Bool :=
  decide (s.response = some (.err .illegalOp) ∨ s.response = some (.err .payloadTooLarge))

end Sys2Proof.Machine
end

