-- ==== Sys2Proof/Certificates/Slice0/Obligations.lean ====
section
/-! DEFINITION. The statements about the model, one per definition, each with the rule of spec/ it formalises. -/

open Sys2Proof Sys2Proof.Machine

/-! ### Reset and the step -/

/-- R110, R91: the state after instantiation and after RESET, for every choice of parameters.  That the response port
shows nothing at instantiation is the model's way of saying "pending responses or events: none" (log entry 3). -/
def Obligations.ResetAndInstantiationLeaveTheResetState : Prop :=
  (∀ p : CkParams, (State.init p).buf = [] ∧ phase (State.init p).buf = some .seekingStx ∧
    (State.init p).response = none ∧ (State.init p).params = p) ∧
  (∀ s : State, exec .reset s = .next { s with buf := [], response := some (.events []) }) ∧
  (∀ s t : State, exec .reset s = .next t → phase t.buf = some .seekingStx ∧ t.params = s.params)

/-- R7's defaults; that `State.reset` is this instance is the model's choice (log entry 1). -/
def Obligations.ResetConstantIsTheDefaultInstance : Prop :=
  State.reset = State.init { alg := .add8, final := .none, window := .addrToData }

/-- R29, R40: a step whose slot holds one request that reads as `i` is `exec i`, with that slot taken off the port (the
port over time is the model's, log entry 2). -/
def Obligations.StepRunsTheDecodedRequest : Prop :=
  ∀ (s : State) (r : RawRequest) (rest : List (List RawRequest)) (i : Instr),
    s.arrivals = [r] :: rest → decode r = .ok i → step s = exec i { s with arrivals := rest }

/-- A slot without a request changes no state of the block; nothing is pending on the response port (log entries 2
and 3). -/
def Obligations.IdleSlotChangesNothing : Prop :=
  ∀ s : State, s.arrivals.headD [] = [] → step s = .next { s with arrivals := s.arrivals.drop 1, response := none }

/-- R114: overlapping requests are refused, whatever they are (that they stand in one slot of the port is how the model
holds the port, log entry 2). -/
def Obligations.OverlappingRequestsAreRefused : Prop :=
  ∀ (s : State) (slot : List RawRequest) (rest : List (List RawRequest)),
    s.arrivals = slot :: rest → 2 ≤ slot.length → step s = .refused .overlappingRequests

/-- A step answers a next state exactly when the present slot keeps the host's duties of R29 and R114. -/
def Obligations.StepAnswersExactlyOnLawfulSlots : Prop :=
  ∀ s : State, (∃ t, step s = .next t) ↔ lawfulSlot (s.arrivals.headD []) = true

/-- R32, R106, R107: a host that keeps its duties is never stopped, however long the run. -/
def Obligations.LawfulHostIsNeverStopped : Prop :=
  ∀ (s : State) (k : Nat), s.lawfulHost = true →
    ∃ t, Host.Core.run core k s = .next t ∧ State.lawfulHost t = true

/-- R42: requests put on the port one a slot (log entry 2) take effect in the order they were issued. -/
def Obligations.QueuedRequestsRunInOrder : Prop :=
  ∀ (is : List Instr) (s : State), ∃ t rs, runRequests is s = .next (t, rs) ∧ rs.length = is.length ∧
    Host.Core.run core is.length (queueRequests is s) = .next { t with arrivals := [] }

/-- R27: no step changes the parameters. -/
def Obligations.ParametersNeverChange : Prop :=
  (∀ s t : State, step s = .next t → t.params = s.params) ∧
  ∀ (k : Nat) (s t : State), Host.Core.run core k s = .next t → State.params t = s.params

/-- R33, R47: a step of one instance leaves every other instance as it was. -/
def Obligations.InstancesShareNothing : Prop :=
  ∀ (ss : List State) (k : Fin ss.length) (us : List State), stepAt ss k = .next us →
    us.length = ss.length ∧ (∀ j : Nat, j ≠ k.val → us[j]? = ss[j]?) ∧
    ∃ t, step (ss.get k) = .next t ∧ us[k.val]? = some t

/-! ### The request format -/

/-- R55: the selector codes, each with its own operands; under `111` the operands are ignored. -/
def Obligations.SelectorCodesAreAsTabled : Prop :=
  (∀ w, decode ⟨0b000, [.seq w]⟩ = .ok (.ckCompute w)) ∧
  (∀ w e, decode ⟨0b001, [.seq w, .byte e]⟩ = .ok (.ckVerify w e)) ∧
  (∀ a c d, decode ⟨0b010, [.byte a, .byte c, .seq d]⟩ = .ok (.encode a c d)) ∧
  (∀ b, decode ⟨0b011, [.seq b]⟩ = .ok (.decode b)) ∧
  (∀ x, decode ⟨0b100, [.byte x]⟩ = .ok (.feedByte x)) ∧
  decode ⟨0b101, []⟩ = .ok .close ∧
  decode ⟨0b110, []⟩ = .ok .reset ∧
  ∀ ops, decode ⟨0b111, ops⟩ = .ok .reserved

/-- R55, R61: writing a request and reading it back gives it back, and a request that reads as an operation other than
the reserved one is the one that operation is written as. -/
def Obligations.RequestsDecodeAsEncoded : Prop :=
  (∀ i : Instr, decode (encode i) = .ok i ∧ RawRequest.wellFormed (encode i) = true) ∧
  ∀ (r : RawRequest) (i : Instr), decode r = .ok i → i = .reserved ∨ encode i = r

/-- The decoder reads exactly the well-formed requests (R29, R55, R56; log entry 4). -/
def Obligations.DecoderAcceptsExactlyWellFormedRequests : Prop :=
  ∀ r : RawRequest, (∃ i, decode r = .ok i) ↔ r.wellFormed = true

/-- R63: the words of spec/opcode_table.json, their operands all zero (log entry 5). -/
def Obligations.TableWordsDecodeToTheirRows : Prop :=
  ([0, 1, 2, 3, 4, 5, 6, 7].map fun w => (decodeTableWord 8 w).map Instr.mnemonic) =
    ["CK_COMPUTE", "CK_VERIFY", "ENCODE", "DECODE", "FEED_BYTE", "CLOSE", "RESET", "RESERVED"].map some

/-- R58: a request written as a line of a program reads back as that request. -/
def Obligations.ProgramLinesReadBackAsWritten : Prop :=
  ∀ (i : Instr) (cs : List Char), showRequest i = some cs → parseLine cs = some (.request i)

/-! ### The checksum -/

/-- R67 with R64 written out: CK_COMPUTE's result, from the sums modulo 256 or the exclusive or, and the complement. -/
def Obligations.CkComputeGivesTheChecksum : Prop :=
  ∀ (w : List Byte) (s : State), exec (.ckCompute w) s =
    .next { s with response := some (.okByte
      (let fold : Byte := w.foldl (fun acc x => match s.params.alg with
          | .add8 => BitVec.ofNat 8 ((acc.toNat + x.toNat) % 256)
          | .xor8 => acc ^^^ x) 0x00
       match s.params.final with
        | .none => fold
        | .ones => 0xFF ^^^ fold
        | .twos => BitVec.ofNat 8 ((256 - fold.toNat) % 256))) }

/-- R68: CK_VERIFY's result; a mismatch is `ok(false)`. -/
def Obligations.CkVerifyComparesWithTheChecksum : Prop :=
  ∀ (w : List Byte) (e : Byte) (s : State),
    (ck s.params w = e → exec (.ckVerify w e) s = .next { s with response := some (.okBool true) }) ∧
    (ck s.params w ≠ e → exec (.ckVerify w e) s = .next { s with response := some (.okBool false) })

/-- R65: the fold in closed form: the sum of all bytes modulo 256, and the parity of each bit.
The spec marks this as its own inference (derived from R64). -/
def Obligations.ChecksumFoldInClosedForm : Prop :=
  (∀ w : List Byte, (ckFold .add8 w).toNat = (w.map BitVec.toNat).sum % 256) ∧
  ∀ (w : List Byte) (k : Nat), k < 8 →
    ((ckFold .xor8 w).getLsbD k = true ↔ (w.countP fun x => x.getLsbD k) % 2 = 1)

/-- R65: the fold of a concatenation, and so no dependence on the order of the bytes.
The spec marks this as its own inference (derived from R64). -/
def Obligations.ChecksumIgnoresByteOrder : Prop :=
  (∀ (alg : CkAlg) (w u : List Byte), ckFold alg (w ++ u) = ckStep alg (ckFold alg w) (ckFold alg u)) ∧
  ∀ (p : CkParams) (w u : List Byte), w.Perm u → ck p w = ck p u

/-- R65: changing one bit of one byte always changes the checksum.
The spec marks this as its own inference (derived from R64). -/
def Obligations.ChecksumDetectsSingleBitErrors : Prop :=
  ∀ (p : CkParams) (w : List Byte) (i k : Nat), i < w.length → k < 8 →
    ck p (w.set i (byteAt w i ^^^ (1#8 <<< k))) ≠ ck p w

/-- R65: some errors of two bytes go undetected, and the checksum of no bytes.
The spec marks this as its own inference (derived from R64). -/
def Obligations.ChecksumMissesSomeTwoByteErrors : Prop :=
  (∀ p : CkParams, ck p [0x01, 0x00] = ck p [0x00, 0x01] ∧ ck p [0x80, 0x80] = ck p [0x00, 0x00]) ∧
  ∀ p : CkParams, ck p [] = match p.final with
    | .none => 0x00
    | .ones => 0xFF
    | .twos => 0x00

/-- R66: under one algorithm the folds of the four windows differ only by constants.
The spec marks this as its own inference (derived from R64). -/
def Obligations.WindowFoldsDifferByConstants : Prop :=
  ∀ (alg : CkAlg) (final : CkFinal) (a c len : Byte) (d : List Byte),
    let fold := fun win => ckFold alg (window ⟨alg, final, win⟩ a c len d)
    fold .stxToData = ckStep alg (fold .addrToData) 0x02 ∧
    fold .addrToEtx = ckStep alg (fold .addrToData) 0x03 ∧
    fold .stxToEtx = ckStep alg (fold .addrToData) (match alg with
      | .add8 => 0x05
      | .xor8 => 0x01)

/-! ### The frame codec -/

/-- R70 with the windows of R66 written out: what ENCODE returns, and R97 what it returns when the data is too long. -/
def Obligations.EncodeGivesTheWireFrame : Prop :=
  ∀ (a c : Byte) (d : List Byte) (s : State),
    (d.length ≤ 255 → exec (.encode a c d) s = .next { s with response := some (.okBytes
      (let len : Byte := BitVec.ofNat 8 d.length
       [0x02, a, c, len] ++ d ++ [0x03, ck s.params (match s.params.window with
        | .addrToData => [a, c, len] ++ d
        | .stxToData => [0x02, a, c, len] ++ d
        | .addrToEtx => [a, c, len] ++ d ++ [0x03]
        | .stxToEtx => [0x02, a, c, len] ++ d ++ [0x03]), 0x0D])) }) ∧
    (255 < d.length → exec (.encode a c d) s = .next { s with response := some (.err .payloadTooLarge) })

/-- R71: what ENCODE returns is a valid frame of `7 + |d|` bytes, so of 7 to 262 (R9, R57).
The spec marks this as its own inference (derived from R70 and R53). -/
def Obligations.EncodeReturnsValidFrames : Prop :=
  ∀ (a c : Byte) (d r : List Byte) (s t : State), exec (.encode a c d) s = .next t →
    t.response = some (.okBytes r) →
    r.length = 7 + d.length ∧ r.length ≤ 262 ∧ (byteAt r 3).toNat = d.length ∧ frameOk s.params r = true

/-- R53: `shape_ok` and `frame_ok`, by the offsets of the rule. -/
def Obligations.FrameShapeIsAsDefined : Prop :=
  ∀ (p : CkParams) (b : List Byte),
    (shapeOk b = true ↔ 7 ≤ b.length ∧ b[0]? = some 0x02 ∧ ∃ len : Byte, b[3]? = some len ∧
      b.length = 7 + len.toNat ∧ b[4 + len.toNat]? = some 0x03 ∧ b[6 + len.toNat]? = some 0x0D) ∧
    (frameOk p b = true ↔ shapeOk b = true ∧ ∃ a c len sum : Byte, b[1]? = some a ∧ b[2]? = some c ∧
      b[3]? = some len ∧ b[5 + len.toNat]? = some sum ∧
      ck p (window p a c len ((b.drop 4).take len.toNat)) = sum)

/-- R74, R75: DECODE on a sequence of the wire layout of R48, and on any other sequence. -/
def Obligations.DecodeChecksStructureThenChecksum : Prop :=
  (∀ (a c len sum : Byte) (d : List Byte) (s : State), d.length = len.toNat →
    exec (.decode ([0x02, a, c, len] ++ d ++ [0x03, sum, 0x0D])) s = .next { s with response := some (
      if ck s.params (window s.params a c len d) = sum then .okFrame ⟨a, c, d⟩ else .err .checksumMismatch) }) ∧
  ∀ (b : List Byte) (s : State),
    (¬ ∃ (a c len sum : Byte) (d : List Byte), d.length = len.toNat ∧
      b = [0x02, a, c, len] ++ d ++ [0x03, sum, 0x0D]) →
    exec (.decode b) s = .next { s with response := some (.err .frameMalformed) }

/-- R77: DECODE returns a Frame exactly on valid frames, and a Frame holds at most 255 bytes of data (R15).
The spec marks this as its own inference (derived from R74 and R53). -/
def Obligations.DecodeAnswersAFrameExactlyOnValidFrames : Prop :=
  ∀ (b : List Byte) (s : State),
    ((∃ f, exec (.decode b) s = .next { s with response := some (.okFrame f) }) ↔ frameOk s.params b = true) ∧
    ∀ (f : Frame) (t : State), exec (.decode b) s = .next t → t.response = some (.okFrame f) → f.data.length ≤ 255

/-- R78: the round trip, both ways, for every value of the checksum parameters.
The spec marks this as its own inference (derived from R70, R74 and R77). -/
def Obligations.EncodeAndDecodeRoundTrip : Prop :=
  (∀ (a c : Byte) (d : List Byte) (s : State), d.length ≤ 255 →
    ∃ r t, exec (.encode a c d) s = .next t ∧ t.response = some (.okBytes r) ∧
      exec (.decode r) t = .next { t with response := some (.okFrame ⟨a, c, d⟩) }) ∧
  ∀ (b : List Byte) (f : Frame) (s t : State), exec (.decode b) s = .next t → t.response = some (.okFrame f) →
    exec (.encode f.address f.command f.data) t = .next { t with response := some (.okBytes b) }

/-- R54: exactly one valid frame for each triple.
The spec marks this as its own inference (derived from R48, R53 and R70). -/
def Obligations.EachTripleHasOneValidFrame : Prop :=
  ∀ (p : CkParams) (a c : Byte) (d : List Byte), d.length ≤ 255 →
    ∃! b : List Byte, frameOk p b = true ∧ byteAt b 1 = a ∧ byteAt b 2 = c ∧ dataField b = d

/-- R54: the number of valid frames.
The spec marks this as its own inference (derived from R48, R53 and R70). -/
def Obligations.NumberOfValidFrames : Prop :=
  ∀ p : CkParams, Set.ncard { b : List Byte | frameOk p b = true } = 256 * 256 * ∑ len ∈ Finset.range 256, 256 ^ len

/-- R79: the answer to a valid frame with any one bit flipped, by the byte the bit is in.
The spec marks this as its own inference (derived from R74 and R65). -/
def Obligations.SingleBitCorruptionIsRefused : Prop :=
  ∀ (b : List Byte) (i k : Nat) (s : State), frameOk s.params b = true → i < b.length → k < 8 →
    exec (.decode (b.set i (byteAt b i ^^^ (1#8 <<< k)))) s = .next { s with response := some (.err
      (if i = 0 ∨ i = 3 ∨ i = 4 + lenField b ∨ i = 6 + lenField b then .frameMalformed else .checksumMismatch)) }

/-- R112: an instance reads another's frame exactly when the two agree on its checksum. -/
def Obligations.ParametersDecideTheVerdict : Prop :=
  ∀ (a c : Byte) (d : List Byte) (s s' : State), d.length ≤ 255 →
    ∃ r, exec (.encode a c d) s = .next { s with response := some (.okBytes r) } ∧
      exec (.decode r) s' = .next { s' with response := some (
      if ck s'.params (window s'.params a c (BitVec.ofNat 8 d.length) d) =
            ck s.params (window s.params a c (BitVec.ofNat 8 d.length) d)
          then .okFrame ⟨a, c, d⟩ else .err .checksumMismatch) }

/-! ### The reassembler -/

/-- R85 (with R41's frame): FEED_BYTE always answers its scan's events and keeps what the scan leaves, changing nothing
else; and a byte that is not STX is dropped at once when the buffer is empty. -/
def Obligations.FeedByteScansTheBuffer : Prop :=
  (∀ (x : Byte) (s : State), exec (.feedByte x) s = .next { s with
    buf := (scan s.params (s.buf ++ [x])).1, response := some (.events (scan s.params (s.buf ++ [x])).2) }) ∧
  ∀ (x : Byte) (s : State), s.buf = [] → x ≠ 0x02 →
    exec (.feedByte x) s = .next { s with buf := [], response := some (.events []) }

/-- R82, R85: SCAN is the loop of R82, with no bound on its passes: there is exactly one function that satisfies the
loop's equations, and FEED_BYTE runs it. -/
def Obligations.FeedByteRunsTheLoopOfTheSpec : Prop :=
  ∀ p : CkParams, ∃ f : List Byte → List Byte × List Event,
    (∀ g : List Byte → List Byte × List Event,
      (∀ s, g s =
        if s = [] then ([], [])
        else if byteAt s 0 ≠ 0x02 then g (s.drop 1)
        else if s.length < 4 then (s, [])
        else if s.length < 7 + (byteAt s 3).toNat then (s, [])
        else if byteAt s (4 + (byteAt s 3).toNat) ≠ 0x03 then g (s.drop 1)
        else
          ((g (s.drop (7 + (byteAt s 3).toNat))).1,
            (match decodeFrame p (s.take (7 + (byteAt s 3).toNat)) with
              | .ok fr => Event.frameOut fr
              | .error e => Event.reject e) :: (g (s.drop (7 + (byteAt s 3).toNat))).2)) ↔ g = f) ∧
    ∀ (x : Byte) (s : State), s.params = p → exec (.feedByte x) s =
      .next { s with buf := (f (s.buf ++ [x])).1, response := some (.events (f (s.buf ++ [x])).2) }

/-- R22: the phase is exactly the row of the table that the buffer meets, and is defined on no other buffer than those
at rest. -/
def Obligations.PhaseIsAsTabled : Prop :=
  phase [] = some .seekingStx ∧
  ∀ buf : List Byte, (restBuf buf = false → phase buf = none) ∧ (restBuf buf = true →
    (phase buf = some .seekingStx ↔ buf.length = 0) ∧
    (phase buf = some .readingHeader ↔ 1 ≤ buf.length ∧ buf.length < 4) ∧
    (phase buf = some .readingData ↔ 4 ≤ buf.length ∧ buf.length < 4 + (byteAt buf 3).toNat) ∧
    (phase buf = some .readingTrailer ↔ 4 ≤ buf.length ∧ 4 + (byteAt buf 3).toNat ≤ buf.length ∧
      buf.length < 7 + (byteAt buf 3).toNat))

/-- R23, R10: a buffer at rest is `[]` or starts at STX and is shorter than the frame it waits for; so it holds at most
261 bytes, and 262 with the next one.
The spec marks this as its own inference (derived from R82, R85 and R86). -/
def Obligations.BufferNeverOverflows : Prop :=
  ∀ (buf : List Byte) (x : Byte), restBuf buf = true →
    (buf = [] ∨ (byteAt buf 0 = 0x02 ∧ (buf.length < 4 ∨ buf.length < 7 + (byteAt buf 3).toNat))) ∧
    buf.length ≤ 261 ∧ (buf ++ [x]).length ≤ bufCap ∧ bufCap = 262

/-- R86, R23, R30, R31: every step keeps the invariant between operations.
The spec marks this as its own inference (derived from R82). -/
def Obligations.EveryStepKeepsTheRestInvariant : Prop :=
  ∀ s t : State, s.atRest = true → step s = .next t → t.atRest = true

/-- R86: FEED_BYTE, CLOSE and RESET leave a buffer at rest from any buffer whatever.
The spec marks this as its own inference (derived from R82). -/
def Obligations.ReassemblerOperationsLeaveTheBufferAtRest : Prop :=
  ∀ (i : Instr) (s : State), touchesBuf i = true → ∃ t, exec i s = .next t ∧ restBuf t.buf = true

/-- R23, R110: the invariant holds after instantiation, whatever the parameters.
The spec marks this as its own inference (derived from R82, R85 and R86). -/
def Obligations.InstantiationIsAtRest : Prop :=
  ∀ p : CkParams, (State.init p).atRest = true

/-- R83: each event of a FEED_BYTE accounts for at least seven bytes that leave the buffer.
The spec marks this as its own inference (derived from R82). -/
def Obligations.ScanEventsAreBounded : Prop :=
  ∀ (x : Byte) (s : State), ∃ t es, exec (.feedByte x) s = .next t ∧ t.response = some (.events es) ∧
    7 * es.length + t.buf.length ≤ s.buf.length + 1

/-- R84: what DECODE can report of a candidate that SCAN hands to it.
The spec marks this as its own inference (derived from R82 and R74). -/
def Obligations.ScanCandidatesFailOnlyOnCrOrSum : Prop :=
  ∀ (p : CkParams) (t : List Byte), byteAt t 0 = 0x02 → t.length = 7 + (byteAt t 3).toNat →
    byteAt t (4 + (byteAt t 3).toNat) = 0x03 →
    (decodeFrame p t = .error .frameMalformed ↔ byteAt t (6 + (byteAt t 3).toNat) ≠ 0x0D) ∧
    (decodeFrame p t = .error .checksumMismatch ↔
      byteAt t (6 + (byteAt t 3).toNat) = 0x0D ∧ frameSum p t ≠ byteAt t (5 + (byteAt t 3).toNat))

/-- R87: chunk invariance of SCAN.
The spec marks this as its own inference (derived from R82 and R85). -/
def Obligations.ScanIsChunkInvariant : Prop :=
  ∀ (p : CkParams) (s u : List Byte),
    scan p (s ++ u) =
      ((scan p ((scan p s).1 ++ u)).1, (scan p s).2 ++ (scan p ((scan p s).1 ++ u)).2)

/-- FEED of a byte sequence gives the events of appending all of it at once to what is buffered and then scanning (R59),
and leaves the same buffer.
That the buffer is the same is R87's and R116's, which the spec marks as its own inferences (R87 derived from R82 and
R85, R116 from R82); R59 speaks of the events alone. -/
def Obligations.FeedEqualsOneScan : Prop :=
  ∀ (u : List Byte) (s : State), restBuf s.buf = true →
    ∃ t rs, runRequests (feed u) s = .next (t, rs) ∧ t.buf = (scan s.params (s.buf ++ u)).1 ∧
      eventsOf rs = (scan s.params (s.buf ++ u)).2

/-- R88: the responses and the buffer after any requests are a function of the buffer, the parameters and the requests
alone.
The spec marks this as its own inference (derived from R82, R85 and R87). -/
def Obligations.ResponsesDependOnBufferAndParametersOnly : Prop :=
  ∀ (is : List Instr) (s s' : State), s.buf = s'.buf → s.params = s'.params →
    ∃ t t' rs, runRequests is s = .next (t, rs) ∧ runRequests is s' = .next (t', rs) ∧ t.buf = t'.buf

/-- R117: codec and checksum operations (and the reserved selector) interleaved with the reassembler's change no event
and no buffer.
The spec marks this as its own inference (derived from R41). -/
def Obligations.PureOperationsMayBeInterleaved : Prop :=
  ∀ (is : List Instr) (s : State), ∃ t rs t' rs', runRequests is s = .next (t, rs) ∧
    runRequests (is.filter touchesBuf) s = .next (t', rs') ∧ t.buf = t'.buf ∧ eventsOf rs = eventsOf rs'

/-- R89, R100: CLOSE reports and discards what is pending, or reports nothing when nothing is. -/
def Obligations.CloseReportsPendingBytes : Prop :=
  ∀ s : State,
    (0 < s.buf.length → exec .close s =
      .next { s with buf := [], response := some (.events [.incomplete s.buf.length]) }) ∧
    (s.buf = [] → exec .close s = .next { s with buf := [], response := some (.events []) })

/-- R41, R111: a second CLOSE or RESET reports nothing and changes nothing, and CLOSE leaves what RESET leaves but for
its report.
The spec marks this as its own inference (derived from R89 and R91). -/
def Obligations.CloseAndResetAreIdempotent : Prop :=
  ∀ s : State, ∃ t u, exec .close s = .next t ∧ exec .reset s = .next u ∧
    u = { s with buf := [], response := some (.events []) } ∧ { t with response := u.response } = u ∧
    exec .close u = .next u ∧ exec .reset u = .next u ∧ exec .close t = .next u ∧ exec .reset t = .next u

/-- R90: the truncation law.
The spec marks this as its own inference (derived from R82, R85 and R89). -/
def Obligations.TruncatedFrameReportsIncomplete : Prop :=
  ∀ (b : List Byte) (k : Nat) (s : State), s.buf = [] → frameOk s.params b = true → k < b.length →
    ∃ t rs, runRequests (feed (b.take k)) s = .next (t, rs) ∧ (∀ r ∈ rs, r = .events []) ∧ t.buf = b.take k ∧
      exec .close t = .next { t with
        buf := [], response := some (.events (if 1 ≤ k then [.incomplete k] else [])) }

/-- R92: the resync law, for noise without an STX.
The spec marks this as its own inference (derived from R82). -/
def Obligations.NoiseWithoutStxIsDropped : Prop :=
  ∀ (g b : List Byte) (f : Frame) (s : State), s.buf = [] → (∀ x ∈ g, x ≠ 0x02) → decodeFrame s.params b = .ok f →
    ∃ t rs, runRequests (feed (g ++ b)) s = .next (t, rs) ∧ eventsOf rs = [.frameOut f] ∧ t.buf = []

/-- R92, R119: with an STX among the noise a valid frame may not be found by its last byte, under any parameters.
The spec marks this as its own inference (derived from R92 and R95). -/
def Obligations.NoiseWithStxCanHideAFrame : Prop :=
  ∀ s : State, s.buf = [] → ∃ (g b : List Byte) (t : State) (rs : List Response), 0x02 ∈ g ∧ frameOk s.params b = true ∧
    runRequests (feed (g ++ b)) s = .next (t, rs) ∧ eventsOf rs = [] ∧ t.buf = g ++ b

/-- R93: a valid frame inside a misaligned candidate is found by the FEED_BYTE that completes the candidate.
The spec marks this as its own inference (derived from R82). -/
def Obligations.FrameInsideMisalignedCandidateIsFound : Prop :=
  ∀ (g b rest : List Byte) (f : Frame) (x : Byte) (s : State), s.buf ++ [x] = 0x02 :: (g ++ b ++ rest) →
    7 + (byteAt (s.buf ++ [x]) 3).toNat ≤ (s.buf ++ [x]).length →
    byteAt (s.buf ++ [x]) (4 + (byteAt (s.buf ++ [x]) 3).toNat) ≠ 0x03 →
    (∀ y ∈ g, y ≠ 0x02) → decodeFrame s.params b = .ok f →
    exec (.feedByte x) s = .next { s with
      buf := (scan s.params rest).1, response := some (.events (.frameOut f :: (scan s.params rest).2)) }

/-- R94: a candidate that reaches DECODE and fails consumes all its bytes.
The spec marks this as its own inference (derived from R82 and R74). -/
def Obligations.RejectedCandidateConsumesItsBytes : Prop :=
  ∀ (cand rest : List Byte) (e : CodecError) (x : Byte) (s : State), s.buf ++ [x] = cand ++ rest →
    byteAt cand 0 = 0x02 → cand.length = 7 + (byteAt cand 3).toNat →
    byteAt cand (4 + (byteAt cand 3).toNat) = 0x03 → decodeFrame s.params cand = .error e →
    exec (.feedByte x) s = .next { s with
      buf := (scan s.params rest).1, response := some (.events (.reject e :: (scan s.params rest).2)) }

/-- R95: the last byte of a valid frame fed into an empty buffer gives the frame; R90's statement says that no earlier
byte does.
The spec marks this as its own inference (derived from R82, R86, R93 and R94). -/
def Obligations.FrameIsEmittedByItsLastByte : Prop :=
  ∀ (f : Frame) (x : Byte) (s : State), decodeFrame s.params (s.buf ++ [x]) = .ok f →
    exec (.feedByte x) s = .next { s with buf := [], response := some (.events [.frameOut f]) }

/-- FEED_FRAME loops a frame back into the receiver; if ENCODE refuses it, nothing is fed (R60).
R60 gives the expansion alone; that exactly the FrameOut of the fields comes out and the buffer ends empty follows from
R71, R78 and R92, which the spec marks as its own inferences (R71 derived from R70 and R53, R78 from R70, R74 and R77,
R92 from R82). -/
def Obligations.FeedFrameLoopsBack : Prop :=
  ∀ (a c : Byte) (d : List Byte) (s : State),
    (s.buf = [] → d.length ≤ 255 → ∃ t r rs, runRequests (feedFrame s.params a c d) s = .next (t, .okBytes r :: rs) ∧
      eventsOf rs = [.frameOut ⟨a, c, d⟩] ∧ t.buf = []) ∧
    (255 < d.length → runRequests (feedFrame s.params a c d) s =
      .next ({ s with response := some (.err .payloadTooLarge) }, [.err .payloadTooLarge]))

/-! ### Responses, errors and frames of the operations -/

/-- The reserved selector answers `IllegalOp`, whatever its operands, and changes no state of the block; there is no
other reserved code, and every operand of every operation is legal (R56, R101).
That this is a next state and no fault is the model's reading (DEDUCED, log entry 6), where 93_implementation_defined.md
I8 and 92_eei_decisions.md D33 speak of a fault of the host's program; the step clause rests on the port over time
(DESIGN CHOICE, log entry 2). -/
def Obligations.ReservedSelectorAnswersIllegalOp : Prop :=
  (∀ s : State, exec .reserved s = .next { s with response := some (.err .illegalOp) }) ∧
  (∀ (s : State) (ops : List Operand) (rest : List (List RawRequest)),
    step { s with arrivals := [⟨0b111, ops⟩] :: rest } =
      .next { s with arrivals := rest, response := some (.err .illegalOp) }) ∧
  (∀ r : RawRequest, decode r = .ok .reserved ↔ r.opsel = 0b111) ∧
  ∀ i : Instr, i.wellFormed = true ∧ ∃ r : RawRequest, decode r = .ok i

/-- In every state every operation answers (R107), with a response of the kind R30 gives it; the errors each operation
can answer are R70's, R74's and R56's.
That the reserved selector's answer is a next state and no fault is the model's reading (DEDUCED, log entry 6). -/
def Obligations.EveryRequestGetsAResponseOfItsKind : Prop :=
  ∀ (i : Instr) (s : State), ∃ t r, exec i s = .next t ∧ t.response = some r ∧
    match i with
    | .ckCompute _ => ∃ v, r = .okByte v
    | .ckVerify _ _ => ∃ v, r = .okBool v
    | .encode _ _ _ => (∃ v, r = .okBytes v ∧ 7 ≤ v.length ∧ v.length ≤ 262) ∨ r = .err .payloadTooLarge
    | .decode _ => (∃ f, r = .okFrame f) ∨ r = .err .frameMalformed ∨ r = .err .checksumMismatch
    | .feedByte _ => ∃ es, r = .events es
    | .close => ∃ es, r = .events es
    | .reset => ∃ es, r = .events es
    | .reserved => r = .err .illegalOp

/-- Which operation reports which code, why, and with which number (R96); 0 is every outcome without an error, 4 is an
event's code only, and 6 and 7 are never produced.
Two things here are the model's reading.  That the response of FEED_BYTE, CLOSE and RESET, an event list, has code 0
whatever its events, so that as a response's code 2 and 3 are DECODE's alone and 4 never occurs, is DEDUCED (log entry
7).  That the reserved selector's answer is a next state and no fault is DEDUCED (log entry 6).  The code of a
`FrameOut` event, also log entry 7's, is said here only not to be 6 or 7. -/
def Obligations.ReportCodesAreAsTabled : Prop :=
  ∀ (i : Instr) (s : State), ∃ t r, exec i s = .next t ∧ t.response = some r ∧
    (r.code.toBits = 0#3 ↔ ∀ e, r ≠ .err e) ∧
    (r.code.toBits = 1#3 ↔ ∃ a c d, i = .encode a c d ∧ 255 < d.length) ∧
    (r.code.toBits = 2#3 ↔ ∃ b, i = .decode b ∧ shapeOk b = false) ∧
    (r.code.toBits = 3#3 ↔ ∃ b, i = .decode b ∧ shapeOk b = true ∧
      frameSum s.params b ≠ byteAt b (5 + lenField b)) ∧
    (r.code.toBits = 5#3 ↔ i = .reserved) ∧
    (r.code.toBits ≠ 4#3 ∧ r.code.toBits ≠ 6#3 ∧ r.code.toBits ≠ 7#3) ∧
    ∀ ev ∈ r.eventList,
      (ev = .reject .frameMalformed → (∃ x, i = .feedByte x) ∧ ev.code.toBits = 2#3) ∧
      (ev = .reject .checksumMismatch → (∃ x, i = .feedByte x) ∧ ev.code.toBits = 3#3) ∧
      (∀ n, ev = .incomplete n → i = .close ∧ n = s.buf.length ∧ 1 ≤ n ∧ ev.code.toBits = 4#3) ∧
      ev.code.toBits ≠ 6#3 ∧ ev.code.toBits ≠ 7#3

/-- R105, R106: an `err` response changes no state of the block, and every later request behaves as if the request that
gave it had not been issued. -/
def Obligations.ErrorsArePrecise : Prop :=
  ∀ (i : Instr) (s t : State) (e : Err), exec i s = .next t → t.response = some (.err e) →
    t = { s with response := some (.err e) } ∧ ∀ j : Instr, exec j t = exec j s

/-- R41: the frame of every operation: only FEED_BYTE, CLOSE and RESET write the buffer, nothing writes the parameters,
and no operation touches the request port.
The spec marks this as its own inference (derived from R70, R74, R85, R89 and R91). -/
def Obligations.OnlyReassemblerOperationsWriteTheBuffer : Prop :=
  ∀ (i : Instr) (s t : State), exec i s = .next t →
    t.params = s.params ∧ t.arrivals = s.arrivals ∧
    ((∃ w, i = .ckCompute w) ∨ (∃ w e, i = .ckVerify w e) ∨ (∃ a c d, i = .encode a c d) ∨ (∃ b, i = .decode b) ∨
      i = .reserved → t.buf = s.buf) ∧
    (i = .close ∨ i = .reset → t.buf = [])
end

