-- ==== Sys2Proof/Laws/State.lean ====
section
/-! SUPPORT. One lemma per field per update of State, and what the shared operations over it do. -/

namespace Sys2Proof.Machine

@[simp] theorem setBuf_buf (v : List Byte) (s : State) : (setBuf v s).buf = v := rfl
@[simp] theorem setBuf_params (v : List Byte) (s : State) : (setBuf v s).params = s.params := rfl
@[simp] theorem setBuf_arrivals (v : List Byte) (s : State) : (setBuf v s).arrivals = s.arrivals := rfl
@[simp] theorem setBuf_response (v : List Byte) (s : State) : (setBuf v s).response = s.response := rfl

@[simp] theorem respond_buf (r : Response) (s : State) : (respond r s).buf = s.buf := rfl
@[simp] theorem respond_params (r : Response) (s : State) : (respond r s).params = s.params := rfl
@[simp] theorem respond_arrivals (r : Response) (s : State) : (respond r s).arrivals = s.arrivals := rfl
@[simp] theorem respond_response (r : Response) (s : State) : (respond r s).response = some r := rfl

@[simp] theorem takeSlot_buf (s : State) : (takeSlot s).buf = s.buf := rfl
@[simp] theorem takeSlot_params (s : State) : (takeSlot s).params = s.params := rfl
@[simp] theorem takeSlot_arrivals (s : State) : (takeSlot s).arrivals = s.arrivals.drop 1 := rfl
@[simp] theorem takeSlot_response (s : State) : (takeSlot s).response = s.response := rfl

@[simp] theorem idleSlot_buf (s : State) : (idleSlot s).buf = s.buf := rfl
@[simp] theorem idleSlot_params (s : State) : (idleSlot s).params = s.params := rfl
@[simp] theorem idleSlot_arrivals (s : State) : (idleSlot s).arrivals = s.arrivals.drop 1 := rfl
@[simp] theorem idleSlot_response (s : State) : (idleSlot s).response = none := rfl

@[simp] theorem placeRequest_buf (r : RawRequest) (s : State) : (placeRequest r s).buf = s.buf := rfl
@[simp] theorem placeRequest_params (r : RawRequest) (s : State) : (placeRequest r s).params = s.params := rfl
@[simp] theorem placeRequest_arrivals (r : RawRequest) (s : State) :
    (placeRequest r s).arrivals = [r] :: s.arrivals.drop 1 := rfl
@[simp] theorem placeRequest_response (r : RawRequest) (s : State) : (placeRequest r s).response = s.response := rfl

@[simp] theorem init_buf (p : CkParams) : (State.init p).buf = [] := rfl
@[simp] theorem init_params (p : CkParams) : (State.init p).params = p := rfl
@[simp] theorem init_arrivals (p : CkParams) : (State.init p).arrivals = [] := rfl
@[simp] theorem init_response (p : CkParams) : (State.init p).response = none := rfl

/-- All that `answer` can do: the next state is the state with the response put on its port. -/
theorem answer_eq_next {r : Response} {s t : State} : answer r s = .next t ↔ t = respond r s := by
  unfold answer
  constructor
  · intro h; cases h; rfl
  · rintro rfl; rfl

/-- All that `raiseErr` can do. -/
theorem raiseErr_eq_next {e : Err} {s t : State} : raiseErr e s = .next t ↔ t = respond (.err e) s := answer_eq_next

/-- The buffer each operation leaves (R41). -/
def bufAfter (i : Instr) (s : State) : List Byte :=
  match i with
  | .ckCompute _ => s.buf
  | .ckVerify _ _ => s.buf
  | .encode _ _ _ => s.buf
  | .decode _ => s.buf
  | .feedByte x => (scan s.params (s.buf ++ [x])).1
  | .close => []
  | .reset => []
  | .reserved => s.buf

/-- The response each operation gives (R30). -/
def responseOf (i : Instr) (s : State) : Response :=
  match i with
  | .ckCompute w => .okByte (ck s.params w)
  | .ckVerify w e => .okBool (decide (ck s.params w = e))
  | .encode a c d =>
    match encodeFrame s.params a c d with
    | .ok r => .okBytes r
    | .error e => .err e
  | .decode b =>
    match decodeFrame s.params b with
    | .ok f => .okFrame f
    | .error e => .err e.toErr
  | .feedByte x => .events (scan s.params (s.buf ++ [x])).2
  | .close => .events (if s.buf.length > 0 then [.incomplete s.buf.length] else [])
  | .reset => .events []
  | .reserved => .err .illegalOp

/-- Everything an operation can do: it always answers, and what it leaves is the buffer `bufAfter` and the response
`responseOf`, with all else unchanged. -/
theorem exec_eq (i : Instr) (s : State) : exec i s = .next (respond (responseOf i s) (setBuf (bufAfter i s) s)) := by
  cases i with
  | encode a c d =>
    simp only [exec, execEncode, responseOf, bufAfter]
    cases encodeFrame s.params a c d <;> rfl
  | decode b =>
    simp only [exec, execDecode, responseOf, bufAfter]
    cases decodeFrame s.params b <;> rfl
  | ckCompute w => rfl
  | ckVerify w e => rfl
  | feedByte x => rfl
  | close => rfl
  | reset => rfl
  | reserved => rfl

/-- The same, read from a next state. -/
theorem exec_next {i : Instr} {s t : State} (h : exec i s = .next t) :
    t = respond (responseOf i s) (setBuf (bufAfter i s) s) := by
  rw [exec_eq] at h
  cases h
  rfl

end Sys2Proof.Machine
end

