-- ==== Sys2Proof/Laws/Checksum.lean ====
section
/-! SUPPORT. The algebra of the checksum's step. -/

namespace Sys2Proof.Machine

theorem ckStep_assoc (alg : CkAlg) (a b c : Byte) :
    ckStep alg (ckStep alg a b) c = ckStep alg a (ckStep alg b c) := by
  cases alg <;> simp [ckStep, BitVec.add_assoc, BitVec.xor_assoc]

theorem ckStep_comm (alg : CkAlg) (a b : Byte) : ckStep alg a b = ckStep alg b a := by
  cases alg <;> simp [ckStep, BitVec.add_comm, BitVec.xor_comm]

theorem ckStep_zero (alg : CkAlg) (a : Byte) : ckStep alg a 0 = a := by
  cases alg <;> simp [ckStep]

theorem ckStep_cancel {alg : CkAlg} {a b c : Byte} (h : ckStep alg a b = ckStep alg a c) : b = c := by
  cases alg <;> simpa [ckStep] using h

/-- Each complement is one-to-one (R65). -/
theorem ckFin_injective {final : CkFinal} {a b : Byte} (h : ckFin final a = ckFin final b) : a = b := by
  cases final <;> simpa [ckFin] using h

/-- A fold from any start is the start and the fold from 0x00. -/
theorem foldl_ckStep (alg : CkAlg) (a : Byte) (u : List Byte) :
    u.foldl (ckStep alg) a = ckStep alg a (ckFold alg u) := by
  unfold ckFold
  induction u generalizing a with
  | nil => exact (ckStep_zero alg a).symm
  | cons x u ih =>
    rw [List.foldl_cons, List.foldl_cons, ih (ckStep alg a x), ih (ckStep alg 0 x), ckStep_comm alg 0 x, ckStep_zero,
      ckStep_assoc]

theorem ckFold_cons (alg : CkAlg) (x : Byte) (u : List Byte) : ckFold alg (x :: u) = ckStep alg x (ckFold alg u) := by
  rw [ckFold, List.foldl_cons, foldl_ckStep, ckStep_comm alg 0 x, ckStep_zero]

end Sys2Proof.Machine
end

