-- ==== Sys2Proof/Laws/Codec.lean ====
section
/-! SUPPORT. Reading sequences by offset, and what ENCODE's bytes and DECODE's checks say. -/

namespace Sys2Proof.Machine

@[simp] theorem byteAt_nil (i : Nat) : byteAt [] i = 0 := by simp [byteAt]
@[simp] theorem byteAt_cons_zero (x : Byte) (s : List Byte) : byteAt (x :: s) 0 = x := by simp [byteAt]
@[simp] theorem byteAt_cons_succ (x : Byte) (s : List Byte) (i : Nat) : byteAt (x :: s) (i + 1) = byteAt s i := by
  simp [byteAt]

theorem byteAt_append_left {s : List Byte} {i : Nat} (u : List Byte) (h : i < s.length) :
    byteAt (s ++ u) i = byteAt s i := by
  simp [byteAt, List.getElem?_append_left h]

theorem byteAt_append_right {s : List Byte} {i : Nat} (u : List Byte) (h : s.length ≤ i) :
    byteAt (s ++ u) i = byteAt u (i - s.length) := by
  simp [byteAt, List.getElem?_append_right h]

theorem byteAt_take {s : List Byte} {i n : Nat} (h : i < n) : byteAt (s.take n) i = byteAt s i := by
  simp [byteAt, h]

theorem byteAt_set_ne {s : List Byte} {i j : Nat} (x : Byte) (h : i ≠ j) : byteAt (s.set i x) j = byteAt s j := by
  simp [byteAt, List.getElem?_set_ne h]

theorem byteAt_set_self {s : List Byte} {i : Nat} (x : Byte) (h : i < s.length) : byteAt (s.set i x) i = x := by
  simp [byteAt, h]

theorem lenField_le (s : List Byte) : lenField s ≤ 255 := by
  have := (byteAt s 3).isLt
  unfold lenField
  omega

theorem lenField_append {s : List Byte} (u : List Byte) (h : 4 ≤ s.length) : lenField (s ++ u) = lenField s := by
  rw [lenField, byteAt_append_left u (by omega), lenField]

theorem frameLen_append {s : List Byte} (u : List Byte) (h : 4 ≤ s.length) : frameLen (s ++ u) = frameLen s := by
  rw [frameLen, lenField_append u h, frameLen]

/-- A sequence of the wire layout (R48), read field by field. -/
theorem wire_fields {a c len sum : Byte} {d : List Byte} (h : d.length = len.toNat) :
    lenField ([stx, a, c, len] ++ d ++ [etx, sum, cr]) = d.length ∧
    dataField ([stx, a, c, len] ++ d ++ [etx, sum, cr]) = d ∧
    byteAt ([stx, a, c, len] ++ d ++ [etx, sum, cr]) (4 + d.length) = etx ∧
    byteAt ([stx, a, c, len] ++ d ++ [etx, sum, cr]) (5 + d.length) = sum ∧
    byteAt ([stx, a, c, len] ++ d ++ [etx, sum, cr]) (6 + d.length) = cr := by
  have hl : lenField ([stx, a, c, len] ++ d ++ [etx, sum, cr]) = d.length := by simp [lenField, byteAt, h]
  have at' (k : Nat) : byteAt ([stx, a, c, len] ++ d ++ [etx, sum, cr]) (4 + k + d.length) = byteAt [etx, sum, cr] k := by
    rw [byteAt_append_right _ (by simp; omega)]
    congr 1
    simp
    omega
  refine ⟨hl, ?_, ?_, ?_, ?_⟩
  · rw [dataField, slice, hl]
    have : ([stx, a, c, len] ++ d ++ [etx, sum, cr]).take (4 + d.length) = [stx, a, c, len] ++ d := by
      rw [List.take_append_of_le_length (by simp; omega), List.take_of_length_le (by simp; omega)]
    rw [this]
    rfl
  · simpa using at' 0
  · simpa [Nat.add_comm, Nat.add_left_comm] using at' 1
  · simpa [Nat.add_comm, Nat.add_left_comm] using at' 2

/-- Taking a sequence apart at a position inside it. -/
theorem split_at_index {s : List Byte} {i : Nat} (h : i < s.length) :
    s = s.take i ++ byteAt s i :: s.drop (i + 1) := by
  simp [byteAt, h]

/-- A shaped sequence (R53) is exactly one of the wire layout (R48). -/
theorem shapeOk_wire {b : List Byte} (h : shapeOk b = true) :
    (dataField b).length = lenField b ∧ b.length = 7 + lenField b ∧
    b = [stx, byteAt b 1, byteAt b 2, byteAt b 3] ++ dataField b ++ [etx, byteAt b (5 + lenField b), cr] := by
  simp only [shapeOk, decide_eq_true_eq] at h
  obtain ⟨h7, h0, hlen, hetx, hcr⟩ := h
  simp only [frameLen] at hlen
  have hd : (dataField b).length = lenField b := by simp [dataField, slice]; omega
  refine ⟨hd, hlen, List.ext_getElem? fun i => ?_⟩
  have key (j : Nat) (hj : j < b.length) : b[j]? = some (byteAt b j) := by simp [byteAt, hj]
  by_cases hi : i < b.length
  · rcases Nat.lt_or_ge i 4 with h4 | h4
    · rw [key i hi]
      interval_cases i <;> simp [h0]
    · rcases Nat.lt_or_ge i (4 + lenField b) with h5 | h5
      · rw [List.getElem?_append_left (by simp; omega), List.getElem?_append_right (by simpa using h4)]
        rw [dataField, slice, List.getElem?_drop]
        simp only [List.length_cons, List.length_nil]
        rw [show 4 + (i - (0 + 1 + 1 + 1 + 1)) = i by omega, List.getElem?_take, if_pos h5]
      · rw [List.getElem?_append_right (by simp; omega), key i hi]
        obtain h | h | h : i = 4 + lenField b ∨ i = 5 + lenField b ∨ i = 6 + lenField b := by omega
        all_goals
          have hk : i - ([stx, byteAt b 1, byteAt b 2, byteAt b 3] ++ dataField b).length = i - (4 + lenField b) := by
            simp [hd]; omega
          rw [hk]
        · rw [show i - (4 + lenField b) = 0 by omega, h, hetx]; rfl
        · rw [show i - (4 + lenField b) = 1 by omega, h]; rfl
        · rw [show i - (4 + lenField b) = 2 by omega, h, hcr]; rfl
  · rw [List.getElem?_eq_none (by omega), List.getElem?_eq_none (by simp; omega)]

/-- A sequence of the wire layout is shaped. -/
theorem wire_shapeOk {a c len sum : Byte} {d : List Byte} (h : d.length = len.toNat) :
    shapeOk ([stx, a, c, len] ++ d ++ [etx, sum, cr]) = true := by
  obtain ⟨hl, -, he, -, hc⟩ := wire_fields (a := a) (c := c) (sum := sum) h
  simp only [shapeOk, decide_eq_true_eq, frameLen, hl]
  refine ⟨by simp, by simp, by simp; omega, he, hc⟩

/-- Everything DECODE can say (R74, R75), by the two predicates of R53. -/
theorem decodeFrame_eq (p : CkParams) (b : List Byte) :
    decodeFrame p b =
      if shapeOk b = true then
        if frameSum p b = byteAt b (5 + lenField b) then .ok ⟨byteAt b 1, byteAt b 2, dataField b⟩
        else .error .checksumMismatch
      else .error .frameMalformed := by
  unfold decodeFrame
  simp only [shapeOk, decide_eq_true_eq]
  by_cases h7 : b.length < 7
  · rw [if_pos h7, if_neg (by omega)]
  · rw [if_neg h7]
    by_cases h0 : byteAt b 0 = stx <;> by_cases hl : b.length = frameLen b <;>
      by_cases he : byteAt b (4 + lenField b) = etx <;> by_cases hc : byteAt b (6 + lenField b) = cr <;>
      by_cases hs : frameSum p b = byteAt b (5 + lenField b) <;> simp [h0, hl, he, hc, hs] <;> omega

/-- DECODE of a sequence of the wire layout. -/
theorem decodeFrame_wire (p : CkParams) {a c len sum : Byte} {d : List Byte} (h : d.length = len.toNat) :
    decodeFrame p ([stx, a, c, len] ++ d ++ [etx, sum, cr]) =
      if ck p (window p a c len d) = sum then .ok ⟨a, c, d⟩ else .error .checksumMismatch := by
  obtain ⟨hl, hd, -, hs, -⟩ := wire_fields (a := a) (c := c) (sum := sum) h
  rw [decodeFrame_eq, if_pos (wire_shapeOk h), frameSum, hd, hl, hs]
  rfl

/-- Everything ENCODE can say (R70). -/
theorem encodeFrame_cases (p : CkParams) (a c : Byte) (d : List Byte) :
    (d.length ≤ 255 ∧ encodeFrame p a c d = .ok (frameBytes p a c d)) ∨
    (255 < d.length ∧ encodeFrame p a c d = .error .payloadTooLarge) := by
  unfold encodeFrame
  by_cases h : d.length > 255
  · exact .inr ⟨h, if_pos h⟩
  · exact .inl ⟨by omega, if_neg h⟩

/-- The LENGTH byte ENCODE writes (R70). -/
theorem length_byte {d : List Byte} (h : d.length ≤ 255) : d.length = (BitVec.ofNat 8 d.length).toNat := by
  simp
  omega

/-- `frame_ok` (R53) is exactly what makes DECODE answer a Frame. -/
theorem decodeFrame_ok_iff {p : CkParams} {b : List Byte} {f : Frame} :
    decodeFrame p b = .ok f ↔ frameOk p b = true ∧ f = ⟨byteAt b 1, byteAt b 2, dataField b⟩ := by
  rw [decodeFrame_eq, frameOk]
  by_cases h : shapeOk b = true <;> by_cases hs : frameSum p b = byteAt b (5 + lenField b) <;> simp [h, hs, eq_comm]

/-- A Frame that DECODE makes is well formed (R15, R77). -/
theorem decodeFrame_wellFormed {p : CkParams} {b : List Byte} {f : Frame} (h : decodeFrame p b = .ok f) :
    f.wellFormed = true := by
  obtain ⟨hf, rfl⟩ := decodeFrame_ok_iff.mp h
  simp only [frameOk, Bool.and_eq_true] at hf
  have := (shapeOk_wire hf.1).1
  have := lenField_le b
  simp only [Frame.wellFormed, decide_eq_true_eq]
  omega

end Sys2Proof.Machine
end

