-- ==== Sys2Proof/Laws/PerInstr.lean ====
section
/-! SUPPORT. Statements made of every instruction as syntax, one lemma per constructor (LAWS.json). -/

namespace Sys2Proof

/-- What is read from a request is written with that request's selector (R55). -/
theorem encode_opsel_of_decode {r : RawRequest} {j : Instr} (h : decode r = .ok j) : (encode j).opsel = r.opsel := by
  obtain ⟨op, ops⟩ := r
  have hlt : op.toNat < 8 := op.isLt
  apply BitVec.eq_of_toNat_eq
  unfold decode at h
  interval_cases hop : op.toNat <;> simp only at h
  all_goals first
    | (split at h <;> cases h <;> rfl)
    | (cases h; rfl)

/-- Instructions written with one selector are of one row of the opcode table. -/
theorem mnemonic_of_opsel {i j : Instr} (h : (encode j).opsel = (encode i).opsel) : j.mnemonic = i.mnemonic := by
  cases i <;> cases j <;> first | rfl | (simp [encode] at h)

end Sys2Proof

namespace Sys2Proof.Laws.EncodedSelector

/-- The selector alone decides the operation (R55, R62): whatever operands stand beside the selector an instruction is
written with, what is read is an instruction of the same row of the opcode table, or nothing. -/
def Statement (i : Instr) : Prop :=
  ∀ (ops : List Operand) (j : Instr), decode ⟨(encode i).opsel, ops⟩ = .ok j → j.mnemonic = i.mnemonic

/-- The lemma of every constructor. -/
theorem of_opsel (i : Instr) : Statement i := by
  intro ops j h
  exact mnemonic_of_opsel (encode_opsel_of_decode (r := ⟨(encode i).opsel, ops⟩) h)

theorem ckCompute (w : List Byte) : Statement (.ckCompute w) := of_opsel _
theorem ckVerify (w : List Byte) (expected : Byte) : Statement (.ckVerify w expected) := of_opsel _
theorem encode (address command : Byte) (data : List Byte) : Statement (.encode address command data) := of_opsel _
theorem decode (b : List Byte) : Statement (.decode b) := of_opsel _
theorem feedByte (x : Byte) : Statement (.feedByte x) := of_opsel _
theorem close : Statement .close := of_opsel _
theorem reset : Statement .reset := of_opsel _
theorem reserved : Statement .reserved := of_opsel _

end Sys2Proof.Laws.EncodedSelector
end

