-- ==== Sys2Proof/Laws/Reassembler.lean ====
section
/-! SUPPORT. What one pass of SCAN's loop can do, and SCAN without its bound on passes. -/

namespace Sys2Proof.Machine

@[simp] theorem dropNoise_nil : dropNoise [] = [] := rfl

theorem dropNoise_cons (x : Byte) (s : List Byte) : dropNoise (x :: s) = if x = stx then x :: s else dropNoise s := by
  by_cases h : x = stx <;> simp [dropNoise, h]

/-- What is left after the noise is empty or starts at an STX. -/
theorem dropNoise_cases (s : List Byte) : dropNoise s = [] ∨ byteAt (dropNoise s) 0 = stx := by
  induction s with
  | nil => exact .inl rfl
  | cons x s ih =>
    rw [dropNoise_cons]
    split
    · next h => exact .inr (by simpa using h)
    · exact ih

theorem dropNoise_length_le (s : List Byte) : (dropNoise s).length ≤ s.length := by
  induction s with
  | nil => simp
  | cons x s ih =>
    rw [dropNoise_cons]
    split
    · simp
    · simp only [List.length_cons]; omega

/-- A sequence that starts at an STX has no noise to drop. -/
theorem dropNoise_of_stx {s : List Byte} (h : byteAt s 0 = stx) : dropNoise s = s := by
  cases s with
  | nil => rfl
  | cons x s =>
    rw [byteAt_cons_zero] at h
    rw [dropNoise_cons, if_pos h]

/-- Bytes that arrive later are noise only if everything before them was. -/
theorem dropNoise_append (s u : List Byte) :
    dropNoise (s ++ u) = if dropNoise s = [] then dropNoise u else dropNoise s ++ u := by
  induction s with
  | nil => simp
  | cons x s ih =>
    rw [List.cons_append, dropNoise_cons, dropNoise_cons]
    split
    · simp
    · exact ih

/-- Dropping the noise first changes nothing later. -/
theorem dropNoise_idem_append (s u : List Byte) : dropNoise (dropNoise s ++ u) = dropNoise (s ++ u) := by
  rw [dropNoise_append s u]
  split
  · next h => rw [h, List.nil_append]
  · next h =>
    have h0 := (dropNoise_cases s).resolve_left h
    refine dropNoise_of_stx ?_
    rw [byteAt_append_left]
    · exact h0
    · exact List.length_pos_iff.mpr h

/-- Everything a pass of the loop can do (R82). -/
theorem scanPass_cases (p : CkParams) (s : List Byte) :
    (scanPass p s = .wait (dropNoise s) ∧ (dropNoise s = [] ∨ (byteAt (dropNoise s) 0 = stx ∧
      ((dropNoise s).length < 4 ∨ (dropNoise s).length < frameLen (dropNoise s))))) ∨
    (scanPass p s = .resync ((dropNoise s).drop 1) ∧ byteAt (dropNoise s) 0 = stx ∧
      4 ≤ (dropNoise s).length ∧ frameLen (dropNoise s) ≤ (dropNoise s).length ∧
      byteAt (dropNoise s) (4 + lenField (dropNoise s)) ≠ etx) ∨
    (scanPass p s = .complete (candidateEvent p ((dropNoise s).take (frameLen (dropNoise s))))
        ((dropNoise s).drop (frameLen (dropNoise s))) ∧ byteAt (dropNoise s) 0 = stx ∧
      4 ≤ (dropNoise s).length ∧ frameLen (dropNoise s) ≤ (dropNoise s).length ∧
      byteAt (dropNoise s) (4 + lenField (dropNoise s)) = etx) := by
  have hc := dropNoise_cases s
  unfold scanPass passOn
  by_cases h4 : (dropNoise s).length < 4
  · rw [if_pos h4]
    exact .inl ⟨rfl, hc.imp_right fun h => ⟨h, .inl h4⟩⟩
  · have h0 : byteAt (dropNoise s) 0 = stx := hc.resolve_left (by rintro h; simp [h] at h4)
    rw [if_neg h4]
    by_cases hl : (dropNoise s).length < frameLen (dropNoise s)
    · rw [if_pos hl]
      exact .inl ⟨rfl, .inr ⟨h0, .inr hl⟩⟩
    · rw [if_neg hl]
      by_cases he : byteAt (dropNoise s) (4 + lenField (dropNoise s)) = etx
      · rw [if_neg (by simpa using he)]
        exact .inr (.inr ⟨rfl, h0, by omega, by omega, he⟩)
      · rw [if_pos he]
        exact .inr (.inl ⟨rfl, h0, by omega, by omega, he⟩)

/-- The bytes a pass leaves for the next pass, and the event it gives. -/
def Pass.left : Pass → List Byte
  | .wait s => s
  | .resync s => s
  | .complete _ s => s

/-- A pass that does not return removes at least one byte, and seven if it gives an event (R83). -/
theorem scanPass_shorter (p : CkParams) (s : List Byte) :
    (∀ s', scanPass p s = .resync s' → s'.length < s.length) ∧
    (∀ e s', scanPass p s = .complete e s' → s'.length + 7 ≤ s.length) := by
  have hle := dropNoise_length_le s
  obtain ⟨h, -⟩ | ⟨h, -, h4, -⟩ | ⟨h, -, -, hl, -⟩ := scanPass_cases p s <;> rw [h]
  · exact ⟨by simp, by simp⟩
  · refine ⟨fun s' hs => ?_, by simp⟩
    cases hs
    simp only [List.length_drop]
    omega
  · refine ⟨by simp, fun e s' hs => ?_⟩
    cases hs
    simp only [List.length_drop]
    unfold frameLen at *
    omega

/-- Any bound above the length is enough. -/
theorem scanFuel_stable (p : CkParams) (n m : Nat) (s : List Byte) (hn : s.length < n) (hm : s.length < m) :
    scanFuel p n s = scanFuel p m s := by
  induction n generalizing m s with
  | zero => omega
  | succ n ih =>
    cases m with
    | zero => omega
    | succ m =>
      obtain ⟨hr, hc⟩ := scanPass_shorter p s
      unfold scanFuel
      cases hp : scanPass p s with
      | wait s' => rfl
      | resync s' =>
        have := hr s' hp
        exact ih m s' (by omega) (by omega)
      | complete e s' =>
        have := hc e s' hp
        simp only [ih m s' (by omega) (by omega)]

/-- SCAN, pass by pass, with no bound in sight (R82). -/
theorem scan_eq (p : CkParams) (s : List Byte) :
    scan p s =
      match scanPass p s with
      | .wait s' => (s', [])
      | .resync s' => scan p s'
      | .complete e s' => ((scan p s').1, e :: (scan p s').2) := by
  obtain ⟨hr, hc⟩ := scanPass_shorter p s
  rw [scan, scanFuel]
  cases hp : scanPass p s with
  | wait s' => rfl
  | resync s' =>
    have := hr s' hp
    exact scanFuel_stable p _ _ s' (by omega) (by omega)
  | complete e s' =>
    have := hc e s' hp
    simp only [scan, scanFuel_stable p s.length (s'.length + 1) s' (by omega) (by omega)]

/-- An induction over SCAN's passes: to show `P s`, it may be assumed of what the pass leaves. -/
theorem scan_induction (p : CkParams) {P : List Byte → Prop}
    (wait : ∀ s s', scanPass p s = .wait s' → P s)
    (resync : ∀ s s', scanPass p s = .resync s' → P s' → P s)
    (complete : ∀ s e s', scanPass p s = .complete e s' → P s' → P s) (s : List Byte) : P s := by
  induction hn : s.length using Nat.strong_induction_on generalizing s with
  | _ n ih =>
    subst hn
    obtain ⟨hr, hc⟩ := scanPass_shorter p s
    cases hp : scanPass p s with
    | wait s' => exact wait s s' hp
    | resync s' => exact resync s s' hp (ih _ (hr s' hp) s' rfl)
    | complete e s' => exact complete s e s' hp (ih _ (by have := hc e s' hp; omega) s' rfl)

/-- SCAN depends on what is left after the noise only. -/
theorem scan_dropNoise_append (p : CkParams) (s u : List Byte) : scan p (dropNoise s ++ u) = scan p (s ++ u) := by
  rw [scan_eq p (dropNoise s ++ u), scan_eq p (s ++ u), scanPass, scanPass, dropNoise_idem_append]

/-- A pass that did not return goes the same way when more bytes have arrived: it reads only bytes below `7 + L` of its
candidate (R87). -/
theorem scanPass_append (p : CkParams) (s u : List Byte) :
    (∀ s', scanPass p s = .resync s' → scanPass p (s ++ u) = .resync (s' ++ u)) ∧
    (∀ e s', scanPass p s = .complete e s' → scanPass p (s ++ u) = .complete e (s' ++ u)) := by
  have main (h0 : byteAt (dropNoise s) 0 = stx) (h4 : 4 ≤ (dropNoise s).length) :
      scanPass p (s ++ u) = passOn p (dropNoise s ++ u) := by
    rw [scanPass, ← dropNoise_idem_append, dropNoise_of_stx]
    rw [byteAt_append_left u (by omega), h0]
  obtain ⟨h, -⟩ | ⟨h, h0, h4, hl, he⟩ | ⟨h, h0, h4, hl, he⟩ := scanPass_cases p s <;> rw [h]
  · exact ⟨by simp, by simp⟩
  · refine ⟨fun s' hs => ?_, by simp⟩
    cases hs
    have hlt : 4 + lenField (dropNoise s) < (dropNoise s).length := by unfold frameLen at hl; omega
    rw [main h0 h4, passOn, lenField_append u h4, frameLen_append u h4, byteAt_append_left u hlt,
      if_neg (by simp; omega), if_neg (by simp; omega), if_pos he, List.drop_append_of_le_length (by omega)]
  · refine ⟨by simp, fun e s' hs => ?_⟩
    cases hs
    have hlt : 4 + lenField (dropNoise s) < (dropNoise s).length := by unfold frameLen at hl; omega
    rw [main h0 h4, passOn, lenField_append u h4, frameLen_append u h4, byteAt_append_left u hlt,
      if_neg (by simp; omega), if_neg (by simp; omega), if_neg (by simpa using he),
      List.drop_append_of_le_length hl, List.take_append_of_le_length hl]

/-- What a candidate that reached DECODE can report. -/
theorem candidateEvent_cases (p : CkParams) (t : List Byte) :
    (∃ f, decodeFrame p t = .ok f ∧ candidateEvent p t = .frameOut f) ∨
    (∃ e, decodeFrame p t = .error e ∧ candidateEvent p t = .reject e) := by
  unfold candidateEvent
  cases decodeFrame p t with
  | ok f => exact .inl ⟨f, rfl, rfl⟩
  | error e => exact .inr ⟨e, rfl, rfl⟩

end Sys2Proof.Machine
end

