-- ==== Sys2Proof/Laws/Program.lean ====
section
/-! SUPPORT. Running requests in order. -/

namespace Sys2Proof.Machine

@[simp] theorem queueRequests_buf (is : List Instr) (s : State) : (queueRequests is s).buf = s.buf := rfl
@[simp] theorem queueRequests_params (is : List Instr) (s : State) : (queueRequests is s).params = s.params := rfl
@[simp] theorem queueRequests_response (is : List Instr) (s : State) : (queueRequests is s).response = s.response := rfl
@[simp] theorem queueRequests_arrivals (is : List Instr) (s : State) :
    (queueRequests is s).arrivals = is.map fun i => [encode i] := rfl

@[simp] theorem eventsOf_nil : eventsOf [] = [] := rfl
@[simp] theorem eventsOf_cons (r : Response) (rs : List Response) : eventsOf (r :: rs) = r.eventList ++ eventsOf rs := rfl

@[simp] theorem runRequests_nil (s : State) : runRequests [] s = .next (s, []) := rfl

/-- The state one request leaves. -/
def afterRequest (i : Instr) (s : State) : State := respond (responseOf i s) (setBuf (bufAfter i s) s)

/-- The state and the responses a list of requests leaves. -/
def afterRequests : List Instr → State → State × List Response
  | [], s => (s, [])
  | i :: is, s => ((afterRequests is (afterRequest i s)).1, responseOf i s :: (afterRequests is (afterRequest i s)).2)

/-- A run of requests always answers; this is all it does. -/
theorem runRequests_eq (is : List Instr) (s : State) : runRequests is s = .next (afterRequests is s) := by
  induction is generalizing s with
  | nil => rfl
  | cons i is ih => rw [runRequests, exec_eq]; simp only [← afterRequest.eq_1, ih]; rfl

end Sys2Proof.Machine
end

