-- ==== Sys2Proof/Laws/Step.lean ====
section
/-! SUPPORT. What a step can do. -/

namespace Sys2Proof.Machine

/-- The three ways the present slot of the port can stand. -/
theorem portView_cases (arrivals : List (List RawRequest)) :
    (portView arrivals = .idle ∧ (arrivals = [] ∨ ∃ rest, arrivals = [] :: rest)) ∨
    (∃ r rest, portView arrivals = .one r ∧ arrivals = [r] :: rest) ∨
    (∃ slot rest, portView arrivals = .overlap ∧ arrivals = slot :: rest ∧ 2 ≤ slot.length) := by
  match arrivals with
  | [] => exact .inl ⟨rfl, .inl rfl⟩
  | [] :: rest => exact .inl ⟨rfl, .inr ⟨rest, rfl⟩⟩
  | [r] :: rest => exact .inr (.inl ⟨r, rest, rfl, rfl⟩)
  | (a :: b :: slot) :: rest => exact .inr (.inr ⟨_, rest, rfl, rfl, by simp⟩)

/-- Everything a step can do when it answers a next state: the slot was idle, or it held one request that reads as an
operation, which is run. -/
theorem step_next {s t : State} (h : step s = .next t) :
    t = idleSlot s ∨ ∃ r rest i, s.arrivals = [r] :: rest ∧ decode r = .ok i ∧
      t = respond (responseOf i (takeSlot s)) (setBuf (bufAfter i (takeSlot s)) (takeSlot s)) := by
  unfold step at h
  obtain ⟨hv, -⟩ | ⟨r, rest, hv, hr⟩ | ⟨slot, rest, hv, -⟩ := portView_cases s.arrivals
  · rw [hv] at h
    cases h
    exact .inl rfl
  · rw [hv] at h
    cases hd : decode r with
    | ok i =>
      simp only [hd] at h
      exact .inr ⟨r, rest, i, hr, hd, exec_next h⟩
    | error e => simp [hd] at h
  · simp [hv] at h

/-- A run goes on from the state its first step answers. -/
theorem run_of_step_next (M : Host.Core) (k : Nat) {s t : M.State} (h : M.step s = .next t) :
    M.run (k + 1) s = M.run k t := by
  rw [Host.Core.run.eq_2, h]

/-- A run of one step more that answers took a step that answers. -/
theorem run_next (M : Host.Core) (k : Nat) {s u : M.State} (h : M.run (k + 1) s = .next u) :
    ∃ t, M.step s = .next t ∧ M.run k t = .next u := by
  rw [Host.Core.run.eq_2] at h
  cases hs : M.step s with
  | next t => rw [hs] at h; exact ⟨t, rfl, h⟩
  | fault r => rw [hs] at h; cases h
  | refused r => rw [hs] at h; cases h

/-- A run of this machine goes on from the state its first step answers. -/
theorem core_run_of_step (k : Nat) {s t : State} (h : step s = .next t) :
    Host.Core.run core (k + 1) s = Host.Core.run core k t := run_of_step_next core k (s := s) (t := t) h

/-- A run of this machine of one step more that answers took a step that answers. -/
theorem core_run_next (k : Nat) {s u : State} (h : Host.Core.run core (k + 1) s = .next u) :
    ∃ t, step s = .next t ∧ Host.Core.run core k t = .next u := run_next core k (s := s) (u := u) h

end Sys2Proof.Machine
end

