-- ==== Sys2Proof/Laws/Text.lean ====
section
/-! SUPPORT. How the tokens of a written line come back. -/

namespace Sys2Proof.Machine

theorem hexByte_showByte : ∀ x : Byte, hexByte (showByte x) = some x := by decide
theorem hexByte_showScalar : ∀ x : Byte, hexByte (showScalar x) = some x := by decide

/-- A character that neither ends a word nor opens a comment. -/
def wordChar (ch : Char) : Bool := ch ≠ ';' && ch ≠ ' ' && ch ≠ '[' && ch ≠ ']' && ch ≠ ','

theorem showByte_wordChars : ∀ x : Byte, (showByte x).all wordChar = true := by decide
theorem showScalar_wordChars : ∀ x : Byte, (showScalar x).all wordChar = true := by decide

/-- A word is read whole. -/
theorem tokenize_word (w cs acc : List Char) (h : w.all wordChar = true) :
    tokenize acc (w ++ cs) = tokenize (acc ++ w) cs := by
  induction w generalizing acc with
  | nil => simp
  | cons ch w ih =>
    simp only [List.all_cons, Bool.and_eq_true] at h
    obtain ⟨h1, h2⟩ := h
    simp only [wordChar, Bool.and_eq_true, decide_eq_true_eq] at h1
    obtain ⟨⟨⟨⟨a, b⟩, c⟩, d⟩, e⟩ := h1
    rw [List.cons_append, tokenize, if_neg a, if_neg b, if_neg c, if_neg d, if_neg e, ih _ h2]
    simp

theorem tokenize_space (acc cs : List Char) : tokenize acc (' ' :: cs) = flushWord acc ++ tokenize [] cs := rfl
theorem tokenize_comma (acc cs : List Char) :
    tokenize acc (',' :: cs) = flushWord acc ++ .comma :: tokenize [] cs := rfl
theorem tokenize_lbracket (acc cs : List Char) :
    tokenize acc ('[' :: cs) = flushWord acc ++ .lbracket :: tokenize [] cs := rfl
theorem tokenize_rbracket (acc cs : List Char) :
    tokenize acc (']' :: cs) = flushWord acc ++ .rbracket :: tokenize [] cs := rfl

end Sys2Proof.Machine
end

