-- ==== Sys2Proof/Tests/Slice0.lean ====
section
/-! SUPPORT. The model's own tests: words written out from spec R55, vectors of spec/95_test_vectors.md, the checks of
WellFormed.lean against ill-formed terms, and for each statement with hypotheses a state and operands that meet them. -/

namespace Sys2Proof.Tests

open Sys2Proof Sys2Proof.Machine

/-! ### Small states and what a test looks at -/

/-- An instance with the default parameters and this buffer. -/
def withBuf (buf : List Byte) : State := setBuf buf State.reset

/-- The default parameters but for the window (95_test_vectors.md program P4). -/
def stxToEtx : CkParams := { CkParams.defaults with window := .stxToEtx }

/-- The response of an outcome. -/
def respOf : Host.Outcome State Fault Refusal → Option Response
  | .next t => t.response
  | .fault _ => none
  | .refused _ => none

/-- The buffer of an outcome. -/
def bufOf : Host.Outcome State Fault Refusal → Option (List Byte)
  | .next t => some t.buf
  | .fault _ => none
  | .refused _ => none

/-- The refusal of an outcome. -/
def refusalOf : Host.Outcome State Fault Refusal → Option Refusal
  | .next _ => none
  | .fault _ => none
  | .refused r => some r

/-- What a request reads as. -/
def decoded (r : RawRequest) : Option Instr :=
  match decode r with
  | .ok i => some i
  | .error _ => none

/-- A run of one byte. -/
def bytes (n : Nat) (x : Byte) : List Byte := List.replicate n x

@[simp] theorem bytes_length (n : Nat) (x : Byte) : (bytes n x).length = n := List.length_replicate

/-- The frame of vector E1. -/
def e1 : List Byte := [0x02, 0x00, 0x4F, 0x01, 0x90, 0x03, 0xE0, 0x0D]

/-- The frame of vector E7. -/
def e7 : List Byte := [0x02, 0x12, 0x34, 0x01, 0x56, 0x03, 0x9D, 0x0D]

/-- The Frame value of vector E1. -/
def f1 : Frame := ⟨0x00, 0x4F, [0x90]⟩

/-! ### Decoding: each selector written out bit by bit (R55; the encodings of 95_test_vectors.md section 3) -/

theorem test_decode_ckCompute : decoded ⟨0b000, [.seq [0x00, 0x4F]]⟩ = some (.ckCompute [0x00, 0x4F]) := by decide
theorem test_decode_ckVerify : decoded ⟨0b001, [.seq [0x01], .byte 0xE0]⟩ = some (.ckVerify [0x01] 0xE0) := by decide
theorem test_decode_encode : decoded ⟨0b010, [.byte 0x00, .byte 0x4F, .seq [0x90]]⟩ =
    some (.encode 0x00 0x4F [0x90]) := by decide
theorem test_decode_decode : decoded ⟨0b011, [.seq [0x02]]⟩ = some (.decode [0x02]) := by decide
theorem test_decode_feedByte : decoded ⟨0b100, [.byte 0x02]⟩ = some (.feedByte 0x02) := by decide
theorem test_decode_close : decoded ⟨0b101, []⟩ = some .close := by decide
theorem test_decode_reset : decoded ⟨0b110, []⟩ = some .reset := by decide
theorem test_decode_reserved : decoded ⟨0b111, [.seq [], .byte 0x00]⟩ = some .reserved := by decide
theorem test_decode_rejects_by_name : decode ⟨0b100, [.seq [0x02]]⟩ = .error (.wrongOperands "FEED_BYTE") := rfl
theorem test_table_word_encode : decodeTableWord 8 0b010 = some (.encode 0x00 0x00 []) := by decide
theorem test_fetch_word_runs : respOf (step (State.reset.withFetchWord 8 0b111)) = some (.err .illegalOp) := by decide

/-! ### WellFormed: an ill-formed term for each check -/

theorem test_wellFormed_wrong_kind : RawRequest.wellFormed ⟨0b100, [.seq [0x02]]⟩ = false := by decide
theorem test_wellFormed_wrong_number : RawRequest.wellFormed ⟨0b101, [.byte 0x02]⟩ = false := by decide
theorem test_wellFormed_frame_too_long : Frame.wellFormed ⟨0, 0, bytes 256 0⟩ = false := by
  simp [Frame.wellFormed]
theorem test_wellFormed_incomplete_zero : Event.wellFormed (.incomplete 0) = false := by decide
theorem test_wellFormed_bytes_too_short : Response.wellFormed (.okBytes [0x02]) = false := by decide
theorem test_lawfulSlot_overlap : lawfulSlot [⟨0b101, []⟩, ⟨0b110, []⟩] = false := by decide
theorem test_lawfulSlot_malformed : lawfulSlot [⟨0b100, []⟩] = false := by decide
theorem test_restBuf_noise : restBuf [0x00] = false := by decide
theorem test_restBuf_whole_frame : restBuf e1 = false := by decide
theorem test_atRest_bad_response : State.atRest { State.reset with response := some (.okBytes []) } = false := by decide

/-! ### The vectors of spec/95_test_vectors.md -/

/-- K6: the sum wraps. -/
theorem test_ckCompute_wraps : respOf (exec (.ckCompute [0xFF, 0x01]) State.reset) = some (.okByte 0x00) := by decide
/-- K5: the exclusive or. -/
theorem test_ckCompute_xor :
    respOf (exec (.ckCompute [0x00, 0x4F, 0x01, 0x90]) (State.init { CkParams.defaults with alg := .xor8 })) =
      some (.okByte 0xDE) := by decide
/-- K11: a mismatch. -/
theorem test_ckVerify_mismatch : respOf (exec (.ckVerify [0x00, 0x4F, 0x01, 0x90] 0xE1) State.reset) =
    some (.okBool false) := by decide
/-- K12: the complement of the empty sum. -/
theorem test_ckVerify_ones : respOf (exec (.ckVerify [] 0xFF) (State.init { CkParams.defaults with final := .ones })) =
    some (.okBool true) := by decide
/-- E4: sentinels in DATA are copied. -/
theorem test_encode_sentinels : respOf (exec (.encode 0x01 0x80 [0x02, 0x03, 0x0D]) State.reset) =
    some (.okBytes [0x02, 0x01, 0x80, 0x03, 0x02, 0x03, 0x0D, 0x03, 0x96, 0x0D]) := by decide
/-- E6: 256 bytes are too many. -/
theorem test_encode_too_large : respOf (exec (.encode 0 0 (bytes 256 0)) State.reset) =
    some (.err .payloadTooLarge) := by
  simp [exec, execEncode, encodeFrame, raiseErr, answer, respond, respOf]
/-- D10: ETX and SUM both wrong: structure first. -/
theorem test_decode_structure_first :
    respOf (exec (.decode [0x02, 0x00, 0x4F, 0x01, 0x90, 0x04, 0xE1, 0x0D]) State.reset) =
      some (.err .frameMalformed) := by decide
/-- D16: the window parameter decides. -/
theorem test_decode_window :
    respOf (exec (.decode [0x02, 0x00, 0x4F, 0x01, 0x90, 0x03, 0xE5, 0x0D]) (State.init stxToEtx)) =
      some (.okFrame f1) := by decide
/-- F5b: a resync finds the frame inside the misaligned candidate, at the last noise byte. -/
theorem test_feedByte_resync :
    respOf (exec (.feedByte 0x00) (withBuf ([0x02, 0xAA, 0xBB, 0x07] ++ e1 ++ [0x00]))) =
      some (.events [.frameOut f1]) := by decide
/-- F8: a rejected candidate swallows the frame inside it. -/
theorem test_feedByte_swallows :
    (respOf (exec (.feedByte 0x0D) (withBuf ([0x02, 0x00, 0x00, 0x08] ++ e1 ++ [0x03, 0x00]))),
      bufOf (exec (.feedByte 0x0D) (withBuf ([0x02, 0x00, 0x00, 0x08] ++ e1 ++ [0x03, 0x00])))) =
      (some (.events [.reject .checksumMismatch]), some []) := by decide
/-- F10: CLOSE reports five bytes. -/
theorem test_close_incomplete : respOf (exec .close (withBuf (e1.take 5))) = some (.events [.incomplete 5]) := by decide
/-- F11: CLOSE of an empty buffer reports nothing. -/
theorem test_close_empty : respOf (exec .close State.reset) = some (.events []) := by decide
/-- F15: RESET discards without a report. -/
theorem test_reset_discards : (respOf (exec .reset (withBuf [0x02, 0x00, 0x4F])),
    bufOf (exec .reset (withBuf [0x02, 0x00, 0x4F]))) = (some (.events []), some []) := by decide
/-- F17: the reserved selector leaves the buffer. -/
theorem test_reserved_keeps_buf : (respOf (exec .reserved (withBuf [0x02, 0x00, 0x4F])),
    bufOf (exec .reserved (withBuf [0x02, 0x00, 0x4F]))) =
      (some (.err .illegalOp), some [0x02, 0x00, 0x4F]) := by decide
/-- F1: the phases of a frame's first bytes. -/
theorem test_phase : [0, 1, 4, 5, 7].map (fun k => phase (e1.take k)) =
    [some .seekingStx, some .readingHeader, some .readingData, some .readingTrailer, some .readingTrailer] := by decide
/-- R114: two requests in one slot. -/
theorem test_overlap : refusalOf (step { State.reset with arrivals := [[⟨0b101, []⟩, ⟨0b101, []⟩]] }) =
    some .overlappingRequests := by decide
/-- R58: a line of a program with a comment. -/
theorem test_parse_line : parseLine "CK_VERIFY [00, 4F], 0xE0 ; sum".toList =
    some (.request (.ckVerify [0x00, 0x4F] 0xE0)) := by decide
/-- A comment alone is a line with no request (log entry 9). -/
theorem test_comment_line : (parseLine " ; noise".toList).map (Line.expand CkParams.defaults) = some [] := by decide
/-- R59: FEED expands byte by byte. -/
theorem test_feed_line : (parseLine "FEED [02, 00]".toList).map (Line.expand CkParams.defaults) =
    some [.feedByte 0x02, .feedByte 0x00] := by decide

/-! ### Witnesses: hypotheses of the statements, met together, at the edges of each clause -/

theorem witness_ResetAndInstantiationLeaveTheResetState :
    ∃ t, exec .reset (withBuf [0x02, 0x00]) = .next t := ⟨_, rfl⟩
theorem witness_StepRunsTheDecodedRequest :
    ({ State.reset with arrivals := [[⟨0b100, [.byte 0x02]⟩]] } : State).arrivals = [⟨0b100, [.byte 0x02]⟩] :: [] ∧
    decode ⟨0b100, [.byte 0x02]⟩ = .ok (.feedByte 0x02) := ⟨rfl, rfl⟩
theorem witness_IdleSlotChangesNothing : State.reset.arrivals.headD [] = [] ∧
    ({ State.reset with arrivals := [[], [⟨0b101, []⟩]] } : State).arrivals.headD [] = [] := by decide
theorem witness_OverlappingRequestsAreRefused :
    ({ State.reset with arrivals := [[⟨0b101, []⟩, ⟨0b110, []⟩]] } : State).arrivals =
      [⟨0b101, []⟩, ⟨0b110, []⟩] :: [] ∧ 2 ≤ [(⟨0b101, []⟩ : RawRequest), ⟨0b110, []⟩].length := by decide
theorem witness_LawfulHostIsNeverStopped :
    State.lawfulHost { State.reset with arrivals := [[⟨0b100, [.byte 0x02]⟩], [], [⟨0b111, [.seq []]⟩]] } = true := by
  decide
theorem witness_ParametersNeverChange : (∃ t, step (State.reset.withFetchWord 8 0b110) = .next t) ∧
    ∃ t, Host.Core.run core 2 (State.reset.withFetchWord 8 0b110) = .next t := ⟨⟨_, rfl⟩, ⟨_, rfl⟩⟩
theorem witness_InstancesShareNothing : ∃ us, stepAt [State.reset, withBuf e7] ⟨0, by decide⟩ = .next us := ⟨_, rfl⟩
theorem witness_RequestsDecodeAsEncoded : decode ⟨0b101, []⟩ = .ok .close := rfl
theorem witness_ProgramLinesReadBackAsWritten : showRequest (.feedByte 0x02) = some "FEED_BYTE 0x02".toList := by decide
theorem witness_CkVerifyComparesWithTheChecksum :
    ck State.reset.params [0x00, 0x4F, 0x01, 0x90] = 0xE0 ∧ ck State.reset.params [0x00, 0x4F, 0x01, 0x90] ≠ 0xE1 := by
  decide
theorem witness_ChecksumFoldInClosedForm : (7 : Nat) < 8 := by decide
theorem witness_ChecksumIgnoresByteOrder : List.Perm [0x01, (0x02 : Byte)] [0x02, 0x01] := by decide
theorem witness_ChecksumDetectsSingleBitErrors : 0 < [(0x80 : Byte)].length ∧ (7 : Nat) < 8 := by decide
theorem witness_EncodeGivesTheWireFrame :
    (bytes 255 0x02).length ≤ 255 ∧ 255 < (bytes 256 0x02).length := by simp
theorem witness_EncodeReturnsValidFrames : ∃ t, exec (.encode 0x00 0x4F [0x90]) State.reset = .next t ∧
    t.response = some (.okBytes e1) := ⟨_, rfl, by decide⟩
theorem witness_DecodeChecksStructureThenChecksum : (bytes 255 0x03).length = (0xFF : Byte).toNat ∧
    ([] : List Byte).length = (0x00 : Byte).toNat ∧
    ¬ ∃ (a c len sum : Byte) (d : List Byte), d.length = len.toNat ∧
      [] = [0x02, a, c, len] ++ d ++ [0x03, sum, 0x0D] := by
  refine ⟨by simp, by decide, ?_⟩
  rintro ⟨a, c, len, sum, d, -, h⟩
  simp at h
theorem witness_DecodeAnswersAFrameExactlyOnValidFrames :
    ∃ t, exec (.decode e1) State.reset = .next t ∧ t.response = some (.okFrame f1) := ⟨_, rfl, by decide⟩
theorem witness_EncodeAndDecodeRoundTrip : (bytes 255 0x0D).length ≤ 255 ∧
    ∃ t, exec (.decode e1) State.reset = .next t ∧ t.response = some (.okFrame f1) := ⟨by simp, _, rfl, by decide⟩
theorem witness_EachTripleHasOneValidFrame : ([] : List Byte).length ≤ 255 := by decide
theorem witness_SingleBitCorruptionIsRefused : frameOk State.reset.params e1 = true ∧
    (∀ i ∈ [0, 1, 3, 4, 5, 6, 7], i < e1.length) ∧ (7 : Nat) < 8 ∧ 0 = 0 ∧ 5 = 4 + lenField e1 ∧
    7 = 6 + lenField e1 := by decide
theorem witness_ParametersDecideTheVerdict : [(0x90 : Byte)].length ≤ 255 ∧
    ck (State.init stxToEtx).params (window (State.init stxToEtx).params 0x00 0x4F 0x01 [0x90]) ≠
      ck State.reset.params (window State.reset.params 0x00 0x4F 0x01 [0x90]) := by decide
theorem witness_FeedByteScansTheBuffer : State.reset.buf = [] ∧ (0x03 : Byte) ≠ 0x02 := by decide
theorem witness_PhaseIsAsTabled : restBuf (e1.take 0) = true ∧ restBuf (e1.take 3) = true ∧ restBuf (e1.take 4) = true ∧
    restBuf (e1.take 5) = true ∧ restBuf (e1.take 7) = true ∧ restBuf e1 = false := by decide
theorem witness_BufferNeverOverflows :
    restBuf ([0x02, 0x00, 0x00, 0xFF] ++ bytes 257 0x00) = true := by
  simp [restBuf, byteAt, frameLen, lenField, stx]
theorem witness_EveryStepKeepsTheRestInvariant :
    State.atRest (placeRequest (encode (.feedByte 0x0D)) (withBuf (e1.take 7))) = true ∧
    ∃ t, step (placeRequest (encode (.feedByte 0x0D)) (withBuf (e1.take 7))) = .next t := ⟨by decide, _, rfl⟩
theorem witness_ReassemblerOperationsLeaveTheBufferAtRest : touchesBuf (.feedByte 0x02) = true := by decide
theorem witness_ScanCandidatesFailOnlyOnCrOrSum : byteAt e1 0 = 0x02 ∧ e1.length = 7 + (byteAt e1 3).toNat ∧
    byteAt e1 (4 + (byteAt e1 3).toNat) = 0x03 := by decide
theorem witness_FeedEqualsOneScan : restBuf (withBuf (e1.take 7)).buf = true := by decide
theorem witness_ResponsesDependOnBufferAndParametersOnly :
    State.reset.buf = (State.reset.withFetchWord 8 0b101).buf ∧
    State.reset.params = (State.reset.withFetchWord 8 0b101).params := by decide
theorem witness_CloseReportsPendingBytes : 0 < (withBuf [0x02]).buf.length ∧ State.reset.buf = [] := by decide
theorem witness_TruncatedFrameReportsIncomplete : State.reset.buf = [] ∧ frameOk State.reset.params e1 = true ∧
    0 < e1.length ∧ 7 < e1.length := by decide
theorem witness_NoiseWithoutStxIsDropped : State.reset.buf = [] ∧
    (∀ x ∈ [(0x00 : Byte), 0xFF, 0x0D, 0x03], x ≠ 0x02) ∧ decodeFrame State.reset.params e1 = .ok f1 :=
  ⟨rfl, by decide, rfl⟩
theorem witness_NoiseWithStxCanHideAFrame : State.reset.buf = [] := rfl
theorem witness_FrameInsideMisalignedCandidateIsFound :
    (withBuf ([0x02, 0xAA, 0xBB, 0x07] ++ e1 ++ [0x00])).buf ++ [0x00] =
      0x02 :: ([0xAA, 0xBB, 0x07] ++ e1 ++ [0x00, 0x00]) ∧
    7 + (byteAt ([0x02, 0xAA, 0xBB, 0x07] ++ e1 ++ [0x00, 0x00]) 3).toNat ≤
      ([0x02, 0xAA, 0xBB, 0x07] ++ e1 ++ [0x00, 0x00]).length ∧
    byteAt ([0x02, 0xAA, 0xBB, 0x07] ++ e1 ++ [0x00, 0x00])
      (4 + (byteAt ([0x02, 0xAA, 0xBB, 0x07] ++ e1 ++ [0x00, 0x00]) 3).toNat) ≠ 0x03 ∧
    (∀ y ∈ [(0xAA : Byte), 0xBB, 0x07], y ≠ 0x02) ∧ decodeFrame State.reset.params e1 = .ok f1 :=
  ⟨rfl, by decide, by decide, by decide, rfl⟩
theorem witness_RejectedCandidateConsumesItsBytes :
    (withBuf ([0x02, 0x00, 0x00, 0x08] ++ e1 ++ [0x03, 0x00])).buf ++ [0x0D] =
      ([0x02, 0x00, 0x00, 0x08] ++ e1 ++ [0x03, 0x00, 0x0D]) ++ [] ∧
    byteAt ([0x02, 0x00, 0x00, 0x08] ++ e1 ++ [0x03, 0x00, 0x0D]) 0 = 0x02 ∧
    ([0x02, 0x00, 0x00, 0x08] ++ e1 ++ [0x03, 0x00, 0x0D]).length =
      7 + (byteAt ([0x02, 0x00, 0x00, 0x08] ++ e1 ++ [0x03, 0x00, 0x0D]) 3).toNat ∧
    byteAt ([0x02, 0x00, 0x00, 0x08] ++ e1 ++ [0x03, 0x00, 0x0D])
      (4 + (byteAt ([0x02, 0x00, 0x00, 0x08] ++ e1 ++ [0x03, 0x00, 0x0D]) 3).toNat) = 0x03 ∧
    decodeFrame State.reset.params ([0x02, 0x00, 0x00, 0x08] ++ e1 ++ [0x03, 0x00, 0x0D]) = .error .checksumMismatch :=
  ⟨rfl, by decide, by decide, by decide, rfl⟩
theorem witness_FrameIsEmittedByItsLastByte :
    decodeFrame (withBuf (e1.take 7)).params ((withBuf (e1.take 7)).buf ++ [0x0D]) = .ok f1 := rfl
theorem witness_FeedFrameLoopsBack : State.reset.buf = [] ∧ (bytes 255 0x00).length ≤ 255 ∧
    255 < (bytes 256 0x00).length := by simp [State.reset, State.init]
theorem witness_ReportCodesAreAsTabled : Response.eventList (.events [.incomplete 5]) = [.incomplete 5] := rfl
theorem witness_ErrorsArePrecise : ∃ t, exec (.decode []) (withBuf [0x02]) = .next t ∧
    t.response = some (.err .frameMalformed) := ⟨_, rfl, by decide⟩
theorem witness_OnlyReassemblerOperationsWriteTheBuffer :
    (∃ t, exec .reserved (withBuf [0x02]) = .next t) ∧ ∃ t, exec .close (withBuf [0x02]) = .next t :=
  ⟨⟨_, rfl⟩, ⟨_, rfl⟩⟩

end Sys2Proof.Tests
end

section
/-! PROOFS. The state (spec file 10_state.md): the phase of the reassembler (R22, R23) and several instances (R33). -/

namespace Sys2Proof.Machine

/-! ### The buffer at rest and its phase -/

/-- A buffer at rest is shorter than the frame it waits for (R23), whether or not it holds a LENGTH byte yet. -/
theorem length_lt_frameLen_of_restBuf {buf : List Byte} (h : restBuf buf = true) : buf.length < frameLen buf := by
  have h7 : 7 ≤ frameLen buf := Nat.le_add_right 7 _
  obtain rfl | ⟨-, hlt4 | hlt⟩ := of_decide_eq_true h
  · rw [List.length_nil]; omega
  · omega
  · exact hlt

/-- The phase is undefined on a buffer that is not at rest (R22). -/
theorem phase_of_not_restBuf {buf : List Byte} (h : restBuf buf = false) : phase buf = none := by simp [phase, h]

/-- The four rows of R22's table: the phase of a buffer at rest together with the row's condition. -/
theorem phase_cases {buf : List Byte} (h : restBuf buf = true) :
    (phase buf = some .seekingStx ∧ buf.length = 0) ∨
    (phase buf = some .readingHeader ∧ 1 ≤ buf.length ∧ buf.length < 4) ∨
    (phase buf = some .readingData ∧ 4 ≤ buf.length ∧ buf.length < 4 + lenField buf) ∨
    (phase buf = some .readingTrailer ∧ 4 ≤ buf.length ∧ 4 + lenField buf ≤ buf.length ∧
      buf.length < frameLen buf) := by
  have hlt := length_lt_frameLen_of_restBuf h
  rw [phase, if_pos h]
  split
  · exact .inl ⟨rfl, ‹_›⟩
  split
  · exact .inr (.inl ⟨rfl, by omega, ‹_›⟩)
  split
  · exact .inr (.inr (.inl ⟨rfl, by omega, ‹_›⟩))
  · exact .inr (.inr (.inr ⟨rfl, by omega, by omega, hlt⟩))

/-- Settles O35: the conditions of the four rows exclude each other, so the row a buffer at rest is in decides all four
equivalences. -/
theorem phaseIsAsTabled : Obligations.PhaseIsAsTabled := by
  refine ⟨rfl, fun buf => ⟨phase_of_not_restBuf, fun hrest => ?_⟩⟩
  have hrow := phase_cases hrest
  simp only [frameLen, lenField] at hrow
  obtain ⟨hp, hlen⟩ | ⟨hp, hlo, hhi⟩ | ⟨hp, hlo, hhi⟩ | ⟨hp, hlo, hdata, hhi⟩ := hrow
  all_goals
    simp only [hp, Option.some.injEq, reduceCtorEq, true_iff, false_iff]
    omega

/-! ### Several instances -/

/-- All that `stepAt` can do when it answers: what the step of block `k` alone answers is put in that block's place. -/
theorem stepAt_next {ss us : List State} {k : Fin ss.length} (h : stepAt ss k = .next us) :
    ∃ t, step (ss.get k) = .next t ∧ us = ss.set k t := by
  unfold stepAt at h
  cases hs : step (ss.get k) with
  | next t => rw [hs] at h; cases h; exact ⟨t, rfl, rfl⟩
  | fault r => rw [hs] at h; cases h
  | refused r => rw [hs] at h; cases h

/-- Settles O10: the list differs from the one before only by the one entry that `stepAt` sets. -/
theorem instancesShareNothing : Obligations.InstancesShareNothing := by
  intro ss k us h
  obtain ⟨t, hstep, rfl⟩ := stepAt_next h
  exact ⟨List.length_set, fun j hj => List.getElem?_set_ne hj.symm, t, hstep, List.getElem?_set_self k.isLt⟩

end Sys2Proof.Machine
end

section
/-! PROOFS. The order of operations (spec file 20_memory.md): requests queued one a slot run in order (R42). -/

namespace Sys2Proof.Machine

/-- A request that the host writes on the port reads as the operation it was written for (R55). -/
theorem decode_encode (i : Instr) : Sys2Proof.decode (Sys2Proof.encode i) = .ok i := by cases i <;> rfl

/-- Taking the present slot off the port leaves the later requests queued. -/
theorem takeSlot_queueRequests_cons (i : Instr) (is : List Instr) (s : State) :
    takeSlot (queueRequests (i :: is) s) = queueRequests is s := rfl

/-- What a request leaves on the block does not depend on the requests that wait on the port (R42). -/
theorem afterRequest_queueRequests (i : Instr) (is : List Instr) (s : State) :
    afterRequest i (queueRequests is s) = queueRequests is (afterRequest i s) := rfl

/-- A step of a machine with a queue runs the first request and leaves the others queued. -/
theorem step_queueRequests_cons (i : Instr) (is : List Instr) (s : State) :
    step (queueRequests (i :: is) s) = .next (queueRequests is (afterRequest i s)) := by
  have hstep : step (queueRequests (i :: is) s) = exec i (queueRequests is s) := by
    simp only [step, queueRequests_arrivals, List.map_cons, portView, decode_encode, takeSlot_queueRequests_cons]
  rw [hstep, exec_eq, ← afterRequest.eq_1, afterRequest_queueRequests]

/-- A machine with a queue runs all of it, in order, in as many steps as there are requests. -/
theorem run_queueRequests (is : List Instr) (s : State) :
    Host.Core.run core is.length (queueRequests is s) = .next (queueRequests [] (afterRequests is s).1) := by
  induction is generalizing s with
  | nil => rfl
  | cons i is ih =>
    rw [List.length_cons, core_run_of_step _ (step_queueRequests_cons i is s), ih]
    rfl

/-- One response per request (R30). -/
theorem length_afterRequests (is : List Instr) (s : State) : (afterRequests is s).2.length = is.length := by
  induction is generalizing s with
  | nil => rfl
  | cons i is ih => rw [afterRequests, List.length_cons, List.length_cons, ih]

/-- Settles O8, by induction on the requests: each step serves the head of the queue as `runRequests` does and leaves
the tail queued. -/
theorem queuedRequestsRunInOrder : Obligations.QueuedRequestsRunInOrder := by
  intro is s
  exact ⟨_, _, runRequests_eq is s, length_afterRequests is s, run_queueRequests is s⟩

end Sys2Proof.Machine
end

section
/-! PROOFS. Encodings (spec file 30_encoding.md): the frame's shape by offset (R53) and the selector codes (R55). -/

namespace Sys2Proof.Machine

/-! ### The frame's shape -/

/-- Reading at an offset inside a sequence (R12): the partial reading and `byteAt` give the same byte there. -/
theorem getElem?_eq_some_iff_byteAt {s : List Byte} {i : Nat} {x : Byte} :
    s[i]? = some x ↔ i < s.length ∧ byteAt s i = x := by
  rw [List.getElem?_eq_some_iff, ← exists_prop]
  exact exists_congr fun h => by simp [byteAt, h]

/-- `shape_ok` (R53) by the accessors of the codec. -/
theorem shapeOk_iff {b : List Byte} : shapeOk b = true ↔ 7 ≤ b.length ∧ byteAt b 0 = stx ∧ b.length = frameLen b ∧
    byteAt b (4 + lenField b) = etx ∧ byteAt b (6 + lenField b) = cr := decide_eq_true_iff

/-- `frame_ok` (R53) by the accessors of the codec. -/
theorem frameOk_iff {p : CkParams} {b : List Byte} :
    frameOk p b = true ↔ shapeOk b = true ∧ frameSum p b = byteAt b (5 + lenField b) := by
  rw [frameOk, Bool.and_eq_true, decide_eq_true_iff]

/-- The DATA bytes (R36) are the `L` bytes from offset 4. -/
theorem dataField_eq_take_drop (b : List Byte) : dataField b = (b.drop 4).take (lenField b) := by
  rw [dataField, slice, List.drop_take, Nat.add_sub_cancel_left]

/-- `shape_ok` (R53) by partial readings: each offset it reads lies inside the sequence. -/
theorem shapeOk_iff_getElem? (b : List Byte) :
    shapeOk b = true ↔ 7 ≤ b.length ∧ b[0]? = some stx ∧ ∃ len : Byte, b[3]? = some len ∧
      b.length = 7 + len.toNat ∧ b[4 + len.toNat]? = some etx ∧ b[6 + len.toNat]? = some cr := by
  simp only [shapeOk_iff, frameLen, lenField, getElem?_eq_some_iff_byteAt]
  constructor
  · rintro ⟨h7, hstx, hlen, hetx, hcr⟩
    exact ⟨h7, ⟨by omega, hstx⟩, byteAt b 3, ⟨by omega, rfl⟩, hlen, ⟨by omega, hetx⟩, by omega, hcr⟩
  · rintro ⟨h7, ⟨-, hstx⟩, _, ⟨-, rfl⟩, hlen, ⟨-, hetx⟩, -, hcr⟩
    exact ⟨h7, hstx, hlen, hetx, hcr⟩

/-- `frame_ok` (R53) by partial readings: in a shaped sequence the fields of the window and SUM lie inside it. -/
theorem frameOk_iff_getElem? (p : CkParams) (b : List Byte) :
    frameOk p b = true ↔ shapeOk b = true ∧ ∃ a c len sum : Byte, b[1]? = some a ∧ b[2]? = some c ∧
      b[3]? = some len ∧ b[5 + len.toNat]? = some sum ∧
      ck p (window p a c len ((b.drop 4).take len.toNat)) = sum := by
  simp only [frameOk_iff, frameSum, dataField_eq_take_drop, lenField, getElem?_eq_some_iff_byteAt]
  refine and_congr_right fun hshape => ⟨fun hsum => ?_, ?_⟩
  · obtain ⟨h7, -, hlen, -⟩ := shapeOk_iff.mp hshape
    simp only [frameLen, lenField] at hlen
    exact ⟨byteAt b 1, byteAt b 2, byteAt b 3, _, ⟨by omega, rfl⟩, ⟨by omega, rfl⟩, ⟨by omega, rfl⟩,
      ⟨by omega, rfl⟩, hsum⟩
  · rintro ⟨_, _, _, _, ⟨-, rfl⟩, ⟨-, rfl⟩, ⟨-, rfl⟩, ⟨-, rfl⟩, hsum⟩
    exact hsum

/-- Settles O25: every offset the two predicates name lies inside a sequence of the announced length, so reading there
by `byteAt` is reading there. -/
theorem frameShapeIsAsDefined : Obligations.FrameShapeIsAsDefined :=
  fun p b => ⟨shapeOk_iff_getElem? b, frameOk_iff_getElem? p b⟩

/-! ### The selector codes -/

/-- Under the reserved selector the operands are ignored (R55, R56). -/
theorem decode_reserved (ops : List Operand) : Sys2Proof.decode ⟨0b111, ops⟩ = .ok .reserved := rfl

/-- Settles O11: each of the seven codes 000 to 110 is the request its operation is written as, which reads back. -/
theorem selectorCodesAreAsTabled : Obligations.SelectorCodesAreAsTabled :=
  ⟨fun w => decode_encode (.ckCompute w), fun w e => decode_encode (.ckVerify w e),
    fun a c d => decode_encode (.encode a c d), fun b => decode_encode (.decode b),
    fun x => decode_encode (.feedByte x), decode_encode .close, decode_encode .reset, decode_reserved⟩

end Sys2Proof.Machine
end

section
/-! PROOFS. The checksum (spec file 40_checksum.md): what CK_COMPUTE (R67) and CK_VERIFY (R68) answer. -/

namespace Sys2Proof.Machine

/-! ### The step and the complement on numbers -/

/-- A step of ADD8 is the sum of two numbers modulo 256 (R13, R64). -/
theorem ckStep_add8 (acc x : Byte) : ckStep .add8 acc x = BitVec.ofNat 8 ((acc.toNat + x.toNat) % 256) := by
  apply BitVec.eq_of_toNat_eq
  simp [ckStep]

/-- The ones' complement is the exclusive or with 0xFF (R13, R64). -/
theorem ckFin_ones (v : Byte) : ckFin .ones v = 0xFF ^^^ v := (BitVec.allOnes_xor (x := v)).symm

/-- The twos' complement is the number's distance to 256, modulo 256 (R13, R64). -/
theorem ckFin_twos (v : Byte) : ckFin .twos v = BitVec.ofNat 8 ((256 - v.toNat) % 256) := by
  apply BitVec.eq_of_toNat_eq
  simp [ckFin, BitVec.toNat_neg]

/-! ### The two operations -/

/-- CK_COMPUTE puts the checksum of its operand on the response port and changes nothing else (R67). -/
theorem exec_ckCompute (w : List Byte) (s : State) :
    exec (.ckCompute w) s = .next { s with response := some (.okByte (ck s.params w)) } := exec_eq (.ckCompute w) s

/-- CK_VERIFY puts the outcome of its comparison on the response port and changes nothing else (R68). -/
theorem exec_ckVerify (w : List Byte) (e : Byte) (s : State) :
    exec (.ckVerify w e) s = .next { s with response := some (.okBool (decide (ck s.params w = e))) } :=
  exec_eq (.ckVerify w e) s

/-- Settles O16: the fold's step by the two algorithms, then the complement by its three kinds, each as the lemma on
numbers says. -/
theorem ckComputeGivesTheChecksum : Obligations.CkComputeGivesTheChecksum := by
  intro w s
  rw [exec_ckCompute]
  congr 4
  rw [ck, ckFold]
  have hstep : ckStep s.params.alg = fun acc x => match s.params.alg with
      | .add8 => BitVec.ofNat 8 ((acc.toNat + x.toNat) % 256)
      | .xor8 => acc ^^^ x := by
    funext acc x
    cases s.params.alg with
    | add8 => exact ckStep_add8 acc x
    | xor8 => rfl
  rw [hstep]
  cases s.params.final with
  | none => rfl
  | ones => exact ckFin_ones _
  | twos => exact ckFin_twos _

/-- Settles O17: the Boolean that CK_VERIFY answers is the truth of the equality. -/
theorem ckVerifyComparesWithTheChecksum : Obligations.CkVerifyComparesWithTheChecksum := by
  intro w e s
  rw [exec_ckVerify]
  exact ⟨fun heq => by rw [decide_eq_true heq], fun hne => by rw [decide_eq_false hne]⟩

end Sys2Proof.Machine
end

section
/-! PROOFS. The frame codec (spec file 41_frame_codec.md): what ENCODE (R70, R97) and DECODE (R74, R75) answer. -/

namespace Sys2Proof.Machine

/-! ### DECODE -/

/-- DECODE puts the Frame its body returns on the response port and changes nothing else (R74). -/
theorem exec_decode_of_ok {b : List Byte} {f : Frame} {s : State} (h : decodeFrame s.params b = .ok f) :
    exec (.decode b) s = .next { s with response := some (.okFrame f) } := by
  have hresp : responseOf (.decode b) s = .okFrame f := by rw [responseOf, h]
  rw [exec_eq, hresp]
  rfl

/-- DECODE puts the error its body returns on the response port and changes nothing else (R74, R105). -/
theorem exec_decode_of_error {b : List Byte} {e : CodecError} {s : State} (h : decodeFrame s.params b = .error e) :
    exec (.decode b) s = .next { s with response := some (.err e.toErr) } := by
  have hresp : responseOf (.decode b) s = .err e.toErr := by rw [responseOf, h]
  rw [exec_eq, hresp]
  rfl

/-- `shape_ok` (R53) holds of the sequences of the wire layout (R48) and of no other. -/
theorem shapeOk_iff_wire {b : List Byte} : shapeOk b = true ↔
    ∃ (a c len sum : Byte) (d : List Byte), d.length = len.toNat ∧ b = [stx, a, c, len] ++ d ++ [etx, sum, cr] := by
  constructor
  · intro h
    obtain ⟨hd, -, hwire⟩ := shapeOk_wire h
    exact ⟨_, _, _, _, _, hd, hwire⟩
  · rintro ⟨a, c, len, sum, d, hd, rfl⟩
    exact wire_shapeOk hd

/-- The structural checks of DECODE refuse every sequence that is not shaped, whatever its checksum (R74, R75). -/
theorem decodeFrame_of_not_shapeOk (p : CkParams) {b : List Byte} (h : ¬ shapeOk b = true) :
    decodeFrame p b = .error .frameMalformed := by
  rw [decodeFrame_eq, if_neg h]

/-- DECODE of a sequence of the wire layout: the checksum alone decides the answer (R75). -/
theorem exec_decode_wire {a c len sum : Byte} {d : List Byte} (s : State) (h : d.length = len.toNat) :
    exec (.decode ([stx, a, c, len] ++ d ++ [etx, sum, cr])) s = .next { s with response := some (
      if ck s.params (window s.params a c len d) = sum then .okFrame ⟨a, c, d⟩ else .err .checksumMismatch) } := by
  have hbody := decodeFrame_wire s.params (a := a) (c := c) (sum := sum) h
  by_cases hsum : ck s.params (window s.params a c len d) = sum
  · rw [if_pos hsum] at hbody ⊢
    exact exec_decode_of_ok hbody
  · rw [if_neg hsum] at hbody ⊢
    exact exec_decode_of_error hbody

/-- Settles O26: the sequences of the wire layout are the shaped ones, on which the checksum decides; every other fails
a structural check. -/
theorem decodeChecksStructureThenChecksum : Obligations.DecodeChecksStructureThenChecksum :=
  ⟨fun _ _ _ _ _ s hd => exec_decode_wire s hd,
    fun _ s hwire => exec_decode_of_error (decodeFrame_of_not_shapeOk s.params (mt shapeOk_iff_wire.mp hwire))⟩

/-! ### ENCODE -/

/-- ENCODE puts the frame its body lays out on the response port and changes nothing else (R70). -/
theorem exec_encode_of_ok {a c : Byte} {d r : List Byte} {s : State} (h : encodeFrame s.params a c d = .ok r) :
    exec (.encode a c d) s = .next { s with response := some (.okBytes r) } := by
  have hresp : responseOf (.encode a c d) s = .okBytes r := by rw [responseOf, h]
  rw [exec_eq, hresp]
  rfl

/-- ENCODE puts the error its body returns on the response port and changes nothing else (R97, R105). -/
theorem exec_encode_of_error {a c : Byte} {d : List Byte} {e : Err} {s : State}
    (h : encodeFrame s.params a c d = .error e) :
    exec (.encode a c d) s = .next { s with response := some (.err e) } := by
  have hresp : responseOf (.encode a c d) s = .err e := by rw [responseOf, h]
  rw [exec_eq, hresp]
  rfl

/-- The body of ENCODE on data that one LENGTH byte can count (R70). -/
theorem encodeFrame_of_fits (p : CkParams) (a c : Byte) {d : List Byte} (h : d.length ≤ 255) :
    encodeFrame p a c d = .ok (frameBytes p a c d) := if_neg (Nat.not_lt.mpr h)

/-- The body of ENCODE on data that is too long for its LENGTH byte (R97). -/
theorem encodeFrame_of_too_long (p : CkParams) (a c : Byte) {d : List Byte} (h : 255 < d.length) :
    encodeFrame p a c d = .error .payloadTooLarge := if_pos h

/-- Settles O23: the window of R66 under the checksum is `window` of the block's parameters, so with data that fits
the statement's bytes are `frameBytes`; with longer data ENCODE raises its error. -/
theorem encodeGivesTheWireFrame : Obligations.EncodeGivesTheWireFrame :=
  fun a c _ s => ⟨fun hfits => exec_encode_of_ok (encodeFrame_of_fits s.params a c hfits),
    fun hlong => exec_encode_of_error (encodeFrame_of_too_long s.params a c hlong)⟩

end Sys2Proof.Machine
end

section
/-! PROOFS. The stream reassembler (spec file 42_stream_reassembler.md): SCAN is the loop of R82, FEED_BYTE runs it (R85)
and CLOSE reports what is pending (R89). -/

namespace Sys2Proof.Machine

/-! ### SCAN and the loop of R82 -/

/-- One turn of the loop of R82, with `f` for the turns after it.  A byte of noise takes a turn of its own, where a pass
of SCAN (`scanPass`) drops all the noise at once. -/
def loopTurn (p : CkParams) (f : List Byte → List Byte × List Event) (s : List Byte) : List Byte × List Event :=
  if s = [] then ([], [])
  else if byteAt s 0 ≠ stx then f (s.drop 1)
  else if s.length < 4 then (s, [])
  else if s.length < frameLen s then (s, [])
  else if byteAt s (4 + lenField s) ≠ etx then f (s.drop 1)
  else ((f (s.drop (frameLen s))).1, candidateEvent p (s.take (frameLen s)) :: (f (s.drop (frameLen s))).2)

/-- `f` satisfies the equations of R82's loop. -/
def IsLoop (p : CkParams) (f : List Byte → List Byte × List Event) : Prop := ∀ s, f s = loopTurn p f s

/-- A turn goes on with shorter sequences only (R83). -/
theorem loopTurn_congr (p : CkParams) {f g : List Byte → List Byte × List Event} {s : List Byte}
    (h : ∀ t, t.length < s.length → f t = g t) : loopTurn p f s = loopTurn p g s := by
  by_cases hs : s = []
  · rw [loopTurn, loopTurn, if_pos hs, if_pos hs]
  · have hdrop (n : Nat) (hn : 0 < n) : f (s.drop n) = g (s.drop n) := by
      have hpos := List.length_pos_iff.mpr hs
      exact h _ (by rw [List.length_drop]; omega)
    rw [loopTurn, loopTurn, hdrop 1 Nat.one_pos, hdrop (frameLen s) (by rw [frameLen]; omega)]

/-- The loop's equations have one solution at most, by induction on the number of bytes. -/
theorem IsLoop.unique {p : CkParams} {f g : List Byte → List Byte × List Event} (hf : IsLoop p f) (hg : IsLoop p g) :
    f = g := by
  funext s
  induction hn : s.length using Nat.strong_induction_on generalizing s with
  | _ n ih =>
    subst hn
    calc f s = loopTurn p f s := hf s
      _ = loopTurn p g s := loopTurn_congr p fun t ht => ih _ ht t rfl
      _ = g s := (hg s).symm

@[simp] theorem scan_nil (p : CkParams) : scan p [] = ([], []) := rfl

/-- SEEKING_STX: a byte that is not STX is dropped without an event (R82). -/
theorem scan_cons_of_ne_stx (p : CkParams) {x : Byte} (s : List Byte) (h : x ≠ stx) : scan p (x :: s) = scan p s := by
  rw [scan_eq p (x :: s), scan_eq p s, scanPass, scanPass, dropNoise_cons, if_neg h]

/-- SCAN satisfies the loop's equations: a byte of noise leaves it unchanged, and at an STX its pass is the turn. -/
theorem isLoop_scan (p : CkParams) : IsLoop p (scan p) := by
  intro s
  rw [loopTurn]
  cases s with
  | nil => rfl
  | cons x s =>
    rw [if_neg (List.cons_ne_nil x s), byteAt_cons_zero]
    by_cases hx : x = stx
    · rw [if_neg (not_not.mpr hx), scan_eq, scanPass, dropNoise_cons, if_pos hx, passOn]
      split_ifs <;> rfl
    · rw [if_pos hx, scan_cons_of_ne_stx p s hx]
      rfl

/-! ### The two operations -/

/-- FEED_BYTE keeps what SCAN leaves, puts SCAN's events on the response port and changes nothing else (R85). -/
theorem exec_feedByte (x : Byte) (s : State) : exec (.feedByte x) s = .next { s with
    buf := (scan s.params (s.buf ++ [x])).1, response := some (.events (scan s.params (s.buf ++ [x])).2) } :=
  exec_eq (.feedByte x) s

/-- CLOSE empties the buffer, puts its report on the response port and changes nothing else (R89). -/
theorem exec_close (s : State) : exec .close s = .next { s with
    buf := [], response := some (.events (if s.buf.length > 0 then [.incomplete s.buf.length] else [])) } :=
  exec_eq .close s

/-- Settles O34: the function is SCAN, which satisfies the loop's equations and so is their only solution. -/
theorem feedByteRunsTheLoopOfTheSpec : Obligations.FeedByteRunsTheLoopOfTheSpec := by
  intro p
  refine ⟨scan p, fun g => ⟨fun hg => IsLoop.unique hg (isLoop_scan p), ?_⟩, ?_⟩
  · rintro rfl
    exact isLoop_scan p
  · rintro x s rfl
    exact exec_feedByte x s

/-- Settles O33: in an empty buffer the byte fed is all that SCAN sees, and as noise it leaves nothing. -/
theorem feedByteScansTheBuffer : Obligations.FeedByteScansTheBuffer := by
  refine ⟨exec_feedByte, fun x s hbuf hx => ?_⟩
  have hscan : scan s.params (s.buf ++ [x]) = ([], []) := by
    rw [hbuf, List.nil_append, scan_cons_of_ne_stx s.params [] hx, scan_nil]
  rw [exec_feedByte, hscan]

/-- Settles O46: whether a byte is pending decides the report. -/
theorem closeReportsPendingBytes : Obligations.CloseReportsPendingBytes := by
  intro s
  rw [exec_close]
  refine ⟨fun hpos => by rw [if_pos hpos], fun hnil => ?_⟩
  rw [if_neg (by simp [hnil])]

end Sys2Proof.Machine
end

section
/-! PROOFS. Errors (spec file 60_exceptions.md): an `err` response is precise (R105) and has no effect on later requests
(R106). -/

namespace Sys2Proof.Machine

/-- No operation reads the response port (R28). -/
theorem exec_respond (i : Instr) (r : Response) (s : State) : exec i (respond r s) = exec i s := by
  have hresp : responseOf i (respond r s) = responseOf i s := by cases i <;> rfl
  have hbuf : bufAfter i (respond r s) = bufAfter i s := by cases i <;> rfl
  rw [exec_eq, exec_eq, hresp, hbuf]
  rfl

/-- The operations that can answer `err`, ENCODE, DECODE and the reserved selector, keep the buffer (R105). -/
theorem bufAfter_of_err {i : Instr} {s : State} {e : Err} (h : responseOf i s = .err e) : bufAfter i s = s.buf := by
  cases i with
  | encode a c d => rfl
  | decode b => rfl
  | reserved => rfl
  | ckCompute w => rfl
  | ckVerify w v => rfl
  | feedByte x => nomatch h
  | close => nomatch h
  | reset => nomatch h

/-- An operation that answers `err` leaves its state with the error on the response port (R105). -/
theorem eq_respond_of_err {i : Instr} {s t : State} {e : Err} (h : exec i s = .next t)
    (herr : t.response = some (.err e)) : t = respond (.err e) s := by
  obtain rfl := exec_next h
  have hresp : responseOf i s = .err e := Option.some.inj herr
  rw [hresp, bufAfter_of_err hresp]
  rfl

/-- Settles O58: the error stands on the response port alone, which no later operation reads. -/
theorem errorsArePrecise : Obligations.ErrorsArePrecise := by
  intro i s t e h herr
  obtain rfl := eq_respond_of_err h herr
  exact ⟨rfl, fun j => exec_respond j (.err e) s⟩

end Sys2Proof.Machine
end

section
/-! PROOFS. Reset and hazards (spec file 70_reset_and_hazards.md): the reset state (R110, R91) and overlapping requests
(R114). -/

namespace Sys2Proof.Machine

/-! ### The reset state -/

/-- The block seeks an STX when nothing is pending (R22, R110). -/
@[simp] theorem phase_nil : phase [] = some .seekingStx := rfl

/-- RESET empties the buffer, puts an empty event list on the response port and changes nothing else (R91). -/
theorem exec_reset (s : State) : exec .reset s = .next { s with buf := [], response := some (.events []) } :=
  exec_eq .reset s

/-- Settles O1: instantiation and RESET both leave the buffer empty, which decides the phase; the other fields are read
off `State.init` and off what RESET answers. -/
theorem resetAndInstantiationLeaveTheResetState : Obligations.ResetAndInstantiationLeaveTheResetState := by
  refine ⟨fun p => ⟨init_buf p, ?_, init_response p, init_params p⟩, exec_reset, fun s t h => ?_⟩
  · rw [init_buf, phase_nil]
  · rw [exec_reset] at h
    cases h
    exact ⟨phase_nil, rfl⟩

/-! ### Overlapping requests -/

/-- Two requests or more in the present slot overlap, whatever they are (R114). -/
theorem portView_of_two_le_length {slot : List RawRequest} (rest : List (List RawRequest)) (h : 2 ≤ slot.length) :
    portView (slot :: rest) = .overlap := by
  match slot, h with
  | _ :: _ :: _, _ => rfl

/-- A step refuses overlapping requests before it reads any of them (R114). -/
theorem step_of_overlap {s : State} (h : portView s.arrivals = .overlap) : step s = .refused .overlappingRequests := by
  rw [step, h]

/-- Settles O5: the port's view of the slot depends on the number of its requests alone. -/
theorem overlappingRequestsAreRefused : Obligations.OverlappingRequestsAreRefused := by
  intro s slot rest harr hlen
  have hview : portView s.arrivals = .overlap := by rw [harr, portView_of_two_le_length rest hlen]
  exact step_of_overlap hview

end Sys2Proof.Machine
end

section
/-! PROOFS. The request format (spec file 30_encoding.md sections 2 and 3): which requests read as an operation, and as
which one (R29, R55, R56, R61, R63). -/

namespace Sys2Proof.Machine

/-! ### What is read from a request -/

/-- Everything `decode` can read: a request as its operation is written, or the reserved selector with any operands
(R55, R56). -/
theorem decode_eq_ok_iff {r : RawRequest} {i : Instr} :
    Sys2Proof.decode r = .ok i ↔ Sys2Proof.encode i = r ∨ (i = .reserved ∧ r.opsel = 0b111) := by
  obtain ⟨op, ops⟩ := r
  constructor
  · intro h
    by_cases hsel : op = 0b111
    · subst hsel
      exact .inr ⟨(Except.ok.inj h).symm, rfl⟩
    · have hlt : op.toNat < 7 := by
        have hne : op.toNat ≠ 7 := fun h7 => hsel (BitVec.eq_of_toNat_eq h7)
        have := op.isLt
        omega
      simp only [Sys2Proof.decode] at h
      interval_cases hop : op.toNat
      all_goals
        simp only at h
        split at h <;> cases h
        exact .inl (congrArg (RawRequest.mk · _) (BitVec.eq_of_toNat_eq hop.symm))
  · rintro (h | ⟨rfl, hsel⟩)
    · rw [← h, decode_encode]
    · obtain rfl : op = 0b111 := hsel
      exact decode_reserved ops

/-- The requests that read as the reserved operation are those with the reserved selector (R56). -/
theorem decode_eq_reserved_iff {r : RawRequest} : Sys2Proof.decode r = .ok .reserved ↔ r.opsel = 0b111 := by
  rw [decode_eq_ok_iff]
  constructor
  · rintro (rfl | ⟨-, h⟩)
    · rfl
    · exact h
  · exact fun h => .inr ⟨rfl, h⟩

/-! ### Well-formed requests -/

/-- A request that an operation is written as has the operands of its selector (R55, R61). -/
theorem wellFormed_encode (i : Instr) : (Sys2Proof.encode i).wellFormed = true := by cases i <;> rfl

@[simp] theorem kindOf_eq_byte {o : Operand} : kindOf o = .byte ↔ ∃ x, o = .byte x := by cases o <;> simp [kindOf]
@[simp] theorem kindOf_eq_seq {o : Operand} : kindOf o = .seq ↔ ∃ w, o = .seq w := by cases o <;> simp [kindOf]

/-- A request with the operands of its selector reads as that selector's operation (R29, R55). -/
theorem decode_of_wellFormed {r : RawRequest} (h : r.wellFormed = true) : ∃ i, Sys2Proof.decode r = .ok i := by
  obtain ⟨op, ops⟩ := r
  have hlt : op.toNat < 8 := op.isLt
  simp only [RawRequest.wellFormed, operandKinds] at h
  simp only [Sys2Proof.decode]
  interval_cases op.toNat <;>
    simp only [decide_eq_true_eq, List.map_eq_cons_iff, List.map_eq_nil_iff, kindOf_eq_byte, kindOf_eq_seq] at h
  · obtain ⟨_, _, rfl, ⟨w, rfl⟩, rfl⟩ := h; exact ⟨.ckCompute w, rfl⟩
  · obtain ⟨_, _, rfl, ⟨w, rfl⟩, _, _, rfl, ⟨e, rfl⟩, rfl⟩ := h; exact ⟨.ckVerify w e, rfl⟩
  · obtain ⟨_, _, rfl, ⟨a, rfl⟩, _, _, rfl, ⟨c, rfl⟩, _, _, rfl, ⟨d, rfl⟩, rfl⟩ := h; exact ⟨.encode a c d, rfl⟩
  · obtain ⟨_, _, rfl, ⟨b, rfl⟩, rfl⟩ := h; exact ⟨.decode b, rfl⟩
  · obtain ⟨_, _, rfl, ⟨x, rfl⟩, rfl⟩ := h; exact ⟨.feedByte x, rfl⟩
  · subst h; exact ⟨.close, rfl⟩
  · subst h; exact ⟨.reset, rfl⟩
  · exact ⟨.reserved, rfl⟩

/-- A request that reads as an operation has the operands of its selector (R29, R55). -/
theorem wellFormed_of_decode {r : RawRequest} {i : Instr} (h : Sys2Proof.decode r = .ok i) : r.wellFormed = true := by
  obtain rfl | ⟨-, hsel⟩ := decode_eq_ok_iff.mp h
  · exact wellFormed_encode i
  · simp [RawRequest.wellFormed, operandKinds, hsel]

/-! ### The statements -/

/-- Settles O12: `decode_eq_ok_iff` from left to right. -/
theorem requestsDecodeAsEncoded : Obligations.RequestsDecodeAsEncoded :=
  ⟨fun i => ⟨decode_encode i, wellFormed_encode i⟩,
    fun _ _ h => (decode_eq_ok_iff.mp h).elim .inr fun hreserved => .inl hreserved.1⟩

/-- Settles O13: the operand kinds decide which list of operands stands beside the selector. -/
theorem decoderAcceptsExactlyWellFormedRequests : Obligations.DecoderAcceptsExactlyWellFormedRequests :=
  fun _ => ⟨fun ⟨_, h⟩ => wellFormed_of_decode h, decode_of_wellFormed⟩

/-- Settles O14: eight words, read one by one. -/
theorem tableWordsDecodeToTheirRows : Obligations.TableWordsDecodeToTheirRows := rfl

end Sys2Proof.Machine
end

section
/-! PROOFS. One step of the block and its host's duties (spec file 10_state.md section 3): what each kind of slot leads
to (R29, R40, R103, R114), and what every step keeps (R27, R32). -/

namespace Sys2Proof.Machine

/-! ### The step by the slot it serves -/

/-- An idle slot passes (R103). -/
theorem step_of_idle {s : State} (h : portView s.arrivals = .idle) : step s = .next (idleSlot s) := by
  rw [step, h]

/-- The one request of a slot is run when it reads as an operation (R29, R40). -/
theorem step_of_decode_ok {s : State} {r : RawRequest} {rest : List (List RawRequest)} {i : Instr}
    (harr : s.arrivals = [r] :: rest) (h : Sys2Proof.decode r = .ok i) :
    step s = exec i { s with arrivals := rest } := by
  simp only [step, takeSlot, harr, portView, h, List.drop_one, List.tail_cons]

/-- The one request of a slot is refused when it reads as none (log entry 4). -/
theorem step_of_decode_error {s : State} {r : RawRequest} {rest : List (List RawRequest)} {e : DecodeError}
    (harr : s.arrivals = [r] :: rest) (h : Sys2Proof.decode r = .error e) :
    step s = .refused (.malformedRequest e) := by
  simp only [step, harr, portView, h]

/-! ### When a step answers -/

/-- A slot with one request answers when that request is well formed (R29). -/
theorem step_answers_one_iff {s : State} {r : RawRequest} {rest : List (List RawRequest)}
    (harr : s.arrivals = [r] :: rest) : (∃ t, step s = .next t) ↔ r.wellFormed = true := by
  rw [← decoderAcceptsExactlyWellFormedRequests r]
  cases hd : Sys2Proof.decode r with
  | ok i => simp [step_of_decode_ok harr hd, exec_eq]
  | error e => simp [step_of_decode_error harr hd]

/-- The host's duties on a slot, by the number of its requests (R29, R114). -/
@[simp] theorem lawfulSlot_nil : lawfulSlot [] = true := rfl
@[simp] theorem lawfulSlot_singleton (r : RawRequest) : lawfulSlot [r] = r.wellFormed := by simp [lawfulSlot]
theorem lawfulSlot_of_two_le_length {slot : List RawRequest} (h : 2 ≤ slot.length) : lawfulSlot slot = false := by
  simp only [lawfulSlot, Bool.and_eq_false_imp, decide_eq_true_eq]
  omega

/-- A step answers exactly when the present slot keeps the host's duties (R29, R114). -/
theorem step_answers_iff (s : State) : (∃ t, step s = .next t) ↔ lawfulSlot (s.arrivals.headD []) = true := by
  obtain ⟨hv, harr⟩ | ⟨r, rest, -, harr⟩ | ⟨slot, rest, hv, harr, hlen⟩ := portView_cases s.arrivals
  · have hhead : s.arrivals.headD [] = [] := by obtain h | ⟨rest, h⟩ := harr <;> rw [h] <;> rfl
    rw [step_of_idle hv, hhead]
    exact ⟨fun _ => lawfulSlot_nil, fun _ => ⟨_, rfl⟩⟩
  · rw [step_answers_one_iff harr, harr, List.headD_cons, lawfulSlot_singleton]
  · rw [step_of_overlap hv, harr, List.headD_cons, lawfulSlot_of_two_le_length hlen]
    simp

/-! ### What every step does to the port and the parameters -/

/-- Every step that answers takes the present slot off the port (log entry 2). -/
theorem step_arrivals {s t : State} (h : step s = .next t) : t.arrivals = s.arrivals.drop 1 := by
  obtain rfl | ⟨r, rest, i, -, -, rfl⟩ := step_next h <;> rfl

/-- No step writes the parameters (R27). -/
theorem step_params {s t : State} (h : step s = .next t) : t.params = s.params := by
  obtain rfl | ⟨r, rest, i, -, -, rfl⟩ := step_next h <;> rfl

/-- A host that keeps its duties keeps them in the slots that are left after a step (R32). -/
theorem lawfulHost_step {s t : State} (hs : s.lawfulHost = true) (h : step s = .next t) : t.lawfulHost = true := by
  rw [State.lawfulHost, step_arrivals h]
  rw [State.lawfulHost, List.all_eq_true] at *
  exact fun slot hslot => hs slot (List.mem_of_mem_drop hslot)

/-- Under such a host every step answers: the present slot is lawful, or there is none. -/
theorem step_answers_of_lawfulHost {s : State} (hs : s.lawfulHost = true) : ∃ t, step s = .next t := by
  rw [step_answers_iff]
  rw [State.lawfulHost] at hs
  cases harr : s.arrivals with
  | nil => rfl
  | cons slot rest =>
    rw [harr, List.all_cons, Bool.and_eq_true] at hs
    exact hs.1

/-! ### The statements -/

/-- Settles O7, by induction on the number of steps: each step answers and leaves the host's duties kept. -/
theorem lawfulHostIsNeverStopped : Obligations.LawfulHostIsNeverStopped := by
  intro s k hs
  induction k generalizing s with
  | zero => exact ⟨s, rfl, hs⟩
  | succ k ih =>
    obtain ⟨t, hstep⟩ := step_answers_of_lawfulHost hs
    rw [core_run_of_step k hstep]
    exact ih t (lawfulHost_step hs hstep)

/-- Settles O6: by the number of requests in the present slot, and for one request by how it reads. -/
theorem stepAnswersExactlyOnLawfulSlots : Obligations.StepAnswersExactlyOnLawfulSlots := step_answers_iff

/-- Settles O9: one step keeps the parameters, so a run does, by induction on its length. -/
theorem parametersNeverChange : Obligations.ParametersNeverChange := by
  refine ⟨fun s t => step_params, fun k => ?_⟩
  induction k with
  | zero => intro s t h; cases h; rfl
  | succ k ih =>
    intro s u h
    obtain ⟨t, hstep, hrun⟩ := core_run_next k h
    exact (ih t u hrun).trans (step_params hstep)

/-- Settles O2: both sides are the same literal. -/
theorem resetConstantIsTheDefaultInstance : Obligations.ResetConstantIsTheDefaultInstance := rfl

/-- Settles O3: the request of the slot is read and run. -/
theorem stepRunsTheDecodedRequest : Obligations.StepRunsTheDecodedRequest := fun _ _ _ _ => step_of_decode_ok

/-- Settles O4: an empty slot and an empty port are both idle. -/
theorem idleSlotChangesNothing : Obligations.IdleSlotChangesNothing := by
  intro s h
  have hidle : portView s.arrivals = .idle := by
    cases harr : s.arrivals with
    | nil => rfl
    | cons slot rest =>
      rw [harr, List.headD_cons] at h
      rw [h, portView]
  exact step_of_idle hidle

/-- The reserved selector answers `IllegalOp` and changes nothing else (R56). -/
theorem exec_reserved (s : State) : exec .reserved s = .next { s with response := some (.err .illegalOp) } :=
  exec_eq .reserved s

/-- Settles O55: the selector alone decides the reading (R56), and every operation has the request it is written as. -/
theorem reservedSelectorAnswersIllegalOp : Obligations.ReservedSelectorAnswersIllegalOp := by
  refine ⟨exec_reserved, fun s ops rest => ?_, fun _ => decode_eq_reserved_iff, fun i => ?_⟩
  · rw [step_of_decode_ok rfl (decode_reserved ops), exec_reserved]
  · exact ⟨by cases i <;> rfl, Sys2Proof.encode i, decode_encode i⟩

end Sys2Proof.Machine
end

section
/-! PROOFS. The arithmetic laws of the checksum (spec file 40_checksum.md section 1, R65 and R66). -/

namespace Sys2Proof.Machine

/-! ### The fold of a concatenation -/

@[simp] theorem ckFold_nil (alg : CkAlg) : ckFold alg [] = 0 := rfl

/-- The fold of a concatenation is the step of the folds (R65). -/
theorem ckFold_append (alg : CkAlg) (w u : List Byte) :
    ckFold alg (w ++ u) = ckStep alg (ckFold alg w) (ckFold alg u) := by
  rw [ckFold, List.foldl_append, foldl_ckStep]
  rfl

/-- The fold does not depend on the order of the bytes (R65). -/
theorem ckFold_perm (alg : CkAlg) {w u : List Byte} (h : w.Perm u) : ckFold alg w = ckFold alg u := by
  induction h with
  | nil => rfl
  | cons x _ ih => rw [ckFold_cons, ckFold_cons, ih]
  | swap x y w => simp only [ckFold_cons]; rw [← ckStep_assoc, ckStep_comm alg y x, ckStep_assoc]
  | trans _ _ ih₁ ih₂ => exact ih₁.trans ih₂

/-- Settles O19: `ckFold_append` and `ckFold_perm`; the complement comes after the fold. -/
theorem checksumIgnoresByteOrder : Obligations.ChecksumIgnoresByteOrder :=
  ⟨ckFold_append, fun p _ _ h => congrArg (ckFin p.final) (ckFold_perm p.alg h)⟩

/-! ### The fold in closed form -/

/-- ADD8 sums the bytes modulo 256 (R65). -/
theorem toNat_ckFold_add8 (w : List Byte) : (ckFold .add8 w).toNat = (w.map BitVec.toNat).sum % 256 := by
  induction w with
  | nil => rfl
  | cons x w ih =>
    rw [ckFold_cons, ckStep, BitVec.toNat_add, ih, List.map_cons, List.sum_cons]
    omega

/-- Bit `k` of an XOR8 fold is set when an odd number of the bytes have it set (R65). -/
theorem getLsbD_ckFold_xor8 (w : List Byte) (k : Nat) :
    (ckFold .xor8 w).getLsbD k = true ↔ (w.countP fun x => x.getLsbD k) % 2 = 1 := by
  induction w with
  | nil => simp
  | cons x w ih =>
    rw [ckFold_cons, ckStep, BitVec.getLsbD_xor, List.countP_cons]
    cases x.getLsbD k with
    | false => simpa using ih
    | true =>
      rw [Bool.true_xor, Bool.not_eq_true', ← Bool.not_eq_true, ih, if_pos rfl]
      omega

/-- Settles O18, by induction on the sequence under each algorithm. -/
theorem checksumFoldInClosedForm : Obligations.ChecksumFoldInClosedForm :=
  ⟨toNat_ckFold_add8, fun w k _ => getLsbD_ckFold_xor8 w k⟩

/-! ### Single-bit errors -/

/-- Flipping a bit of a byte changes the byte. -/
theorem flipBit_ne (x : Byte) {k : Nat} (hk : k < 8) : x ^^^ (1#8 <<< k) ≠ x := by
  intro h
  have hbit := congrArg (BitVec.getLsbD · k) h
  simp [hk] at hbit

/-- A fold decides each of its bytes, given the others: each step is one-to-one (R65). -/
theorem ckFold_set_ne (alg : CkAlg) {w : List Byte} {i : Nat} {x : Byte} (hi : i < w.length) (hx : x ≠ byteAt w i) :
    ckFold alg (w.set i x) ≠ ckFold alg w := by
  intro h
  rw [List.set_eq_take_append_cons_drop, if_pos hi] at h
  conv at h => rhs; rw [split_at_index hi]
  simp only [ckFold_append, ckFold_cons] at h
  have hstep := ckStep_cancel h
  rw [ckStep_comm alg x, ckStep_comm alg (byteAt w i)] at hstep
  exact hx (ckStep_cancel hstep)

/-- Settles O20: the flipped byte differs, so the fold does, and the complement is one-to-one. -/
theorem checksumDetectsSingleBitErrors : Obligations.ChecksumDetectsSingleBitErrors :=
  fun p w i _ hi hk h => ckFold_set_ne p.alg hi (flipBit_ne (byteAt w i) hk) (ckFin_injective h)

/-! ### Errors that go undetected -/

/-- Settles O21: swapped bytes are a permutation, and 0x80 cancels itself under both algorithms. -/
theorem checksumMissesSomeTwoByteErrors : Obligations.ChecksumMissesSomeTwoByteErrors := by
  refine ⟨fun p => ⟨checksumIgnoresByteOrder.2 p _ _ (.swap _ _ []), congrArg (ckFin p.final) ?_⟩, fun p => ?_⟩
  · cases p.alg <;> rfl
  · rw [ck, ckFold_nil]
    cases p.final <;> rfl

/-! ### The windows -/

/-- The bytes of a frame from ADDRESS to DATA, which every window holds (R66). -/
def coveredBytes (a c len : Byte) (d : List Byte) : List Byte := [a, c, len] ++ d

/-- What the sentinels that the window adds step the fold by (R66). -/
def windowSentinels (p : CkParams) : Byte :=
  match p.window with
  | .addrToData => 0
  | .stxToData => stx
  | .addrToEtx => etx
  | .stxToEtx => ckStep p.alg stx etx

/-- The fold of a window is that of the bytes from ADDRESS to DATA, stepped by the window's sentinels (R66). -/
theorem ckFold_window (p : CkParams) (a c len : Byte) (d : List Byte) :
    ckFold p.alg (window p a c len d) = ckStep p.alg (ckFold p.alg (coveredBytes a c len d)) (windowSentinels p) := by
  obtain ⟨alg, final, win⟩ := p
  have hetx : ckFold alg [etx] = etx := by rw [ckFold_cons, ckFold_nil, ckStep_zero]
  have hstx : [stx, a, c, len] ++ d = stx :: coveredBytes a c len d := rfl
  cases win with
  | addrToData => exact (ckStep_zero alg _).symm
  | stxToData => simp only [window, windowSentinels, hstx, ckFold_cons, ckStep_comm]
  | addrToEtx => simp only [window, windowSentinels, ← coveredBytes.eq_1, ckFold_append, hetx]
  | stxToEtx =>
    simp only [window, windowSentinels, hstx]
    rw [ckFold_append, hetx, ckFold_cons, ckStep_comm alg stx, ckStep_assoc]

/-- The checksum of a window decides the fold of the bytes from ADDRESS to DATA, and is decided by it. -/
theorem ck_window_eq_iff {p : CkParams} {a c len a' c' len' : Byte} {d d' : List Byte} :
    ck p (window p a c len d) = ck p (window p a' c' len' d') ↔
      ckFold p.alg (coveredBytes a c len d) = ckFold p.alg (coveredBytes a' c' len' d') := by
  rw [ck, ck, ckFold_window, ckFold_window]
  refine ⟨fun h => ?_, fun h => by rw [h]⟩
  have hstep := ckFin_injective h
  rw [ckStep_comm, ckStep_comm p.alg _ (windowSentinels p)] at hstep
  exact ckStep_cancel hstep

/-- Settles O22: the four folds by `ckFold_window`; the sentinels 0x02 and 0x03 give 0x05 or 0x01 together. -/
theorem windowFoldsDifferByConstants : Obligations.WindowFoldsDifferByConstants := by
  intro alg final a c len d
  have hfold (win : CkWindow) := ckFold_window ⟨alg, final, win⟩ a c len d
  dsimp only at hfold ⊢
  simp only [hfold, windowSentinels, ckStep_zero]
  refine ⟨rfl, rfl, ?_⟩
  cases alg <;> rfl

end Sys2Proof.Machine
end

section
/-! PROOFS. The laws of the frame codec (spec file 41_frame_codec.md section 3, R71, R77 to R79; R54, R84, R112): valid
frames are the sequences ENCODE lays out, and what DECODE answers on them and near them. -/

namespace Sys2Proof.Machine

/-! ### Valid frames are the sequences ENCODE lays out -/

/-- DECODE reads back the fields that ENCODE laid out (R78). -/
theorem decodeFrame_frameBytes (p : CkParams) (a c : Byte) {d : List Byte} (h : d.length ≤ 255) :
    decodeFrame p (frameBytes p a c d) = .ok ⟨a, c, d⟩ := by
  rw [frameBytes, decodeFrame_wire p (length_byte h), if_pos rfl]

/-- DECODE answers a Frame exactly on the bytes ENCODE lays out for it (R77, R78). -/
theorem decodeFrame_eq_ok_iff {p : CkParams} {b : List Byte} {f : Frame} :
    decodeFrame p b = .ok f ↔ f.data.length ≤ 255 ∧ b = frameBytes p f.address f.command f.data := by
  constructor
  · intro h
    have hwf := of_decide_eq_true (decodeFrame_wellFormed h)
    obtain ⟨hok, rfl⟩ := decodeFrame_ok_iff.mp h
    obtain ⟨hshape, hsum⟩ := frameOk_iff.mp hok
    obtain ⟨hd, -, hwire⟩ := shapeOk_wire hshape
    have hlen : BitVec.ofNat 8 (dataField b).length = byteAt b 3 := by rw [hd, lenField, BitVec.ofNat_toNat]; simp
    refine ⟨hwf, ?_⟩
    rw [frameSum] at hsum
    rw [frameBytes, hlen, hsum]
    exact hwire
  · rintro ⟨hd, rfl⟩
    exact decodeFrame_frameBytes p f.address f.command hd

/-- What ENCODE lays out is a valid frame with its fields in their places (R71). -/
theorem frameBytes_fields (p : CkParams) (a c : Byte) {d : List Byte} (h : d.length ≤ 255) :
    frameOk p (frameBytes p a c d) = true ∧ byteAt (frameBytes p a c d) 1 = a ∧ byteAt (frameBytes p a c d) 2 = c ∧
      dataField (frameBytes p a c d) = d := by
  obtain ⟨hok, hf⟩ := decodeFrame_ok_iff.mp (decodeFrame_frameBytes p a c h)
  injection hf with ha hc hd
  exact ⟨hok, ha.symm, hc.symm, hd.symm⟩

/-- A valid frame is what ENCODE lays out for its own fields (R54). -/
theorem eq_frameBytes_of_frameOk {p : CkParams} {b : List Byte} (h : frameOk p b = true) :
    (dataField b).length ≤ 255 ∧ b = frameBytes p (byteAt b 1) (byteAt b 2) (dataField b) :=
  decodeFrame_eq_ok_iff.mp (decodeFrame_ok_iff.mpr ⟨h, rfl⟩)

theorem length_frameBytes (p : CkParams) (a c : Byte) (d : List Byte) : (frameBytes p a c d).length = 7 + d.length := by
  simp only [frameBytes, List.length_append, List.length_cons, List.length_nil]
  omega

/-! ### What ENCODE and DECODE answer -/

/-- ENCODE answers bytes only for data that fits, and then those it lays out (R70). -/
theorem responseOf_encode_eq_okBytes {a c : Byte} {d r : List Byte} {s : State}
    (h : responseOf (.encode a c d) s = .okBytes r) : d.length ≤ 255 ∧ r = frameBytes s.params a c d := by
  rw [responseOf] at h
  obtain ⟨hd, henc⟩ | ⟨-, henc⟩ := encodeFrame_cases s.params a c d <;> rw [henc] at h
  · exact ⟨hd, (Response.okBytes.inj h).symm⟩
  · nomatch h

/-- DECODE answers the Frame its body returns (R74). -/
theorem responseOf_decode_eq_okFrame {b : List Byte} {f : Frame} {s : State} :
    responseOf (.decode b) s = .okFrame f ↔ decodeFrame s.params b = .ok f := by
  rw [responseOf]
  cases decodeFrame s.params b <;> simp

/-- The response on the port after an operation is the one the operation gives (R30). -/
theorem responseOf_of_exec {i : Instr} {s t : State} {r : Response} (h : exec i s = .next t)
    (hr : t.response = some r) : responseOf i s = r := by
  obtain rfl := exec_next h
  exact Option.some.inj hr

/-- Settles O24: ENCODE answers the bytes it lays out, a valid frame. -/
theorem encodeReturnsValidFrames : Obligations.EncodeReturnsValidFrames := by
  intro a c d r s t h hr
  obtain ⟨hd, rfl⟩ := responseOf_encode_eq_okBytes (responseOf_of_exec h hr)
  have hlen := length_frameBytes s.params a c d
  exact ⟨hlen, by omega, (wire_fields (length_byte hd)).1, (frameBytes_fields s.params a c hd).1⟩

/-- Settles O27: DECODE's body answers a Frame exactly on valid frames, and that Frame is well formed. -/
theorem decodeAnswersAFrameExactlyOnValidFrames : Obligations.DecodeAnswersAFrameExactlyOnValidFrames := by
  intro b s
  refine ⟨⟨?_, fun hok => ⟨_, exec_decode_of_ok (decodeFrame_ok_iff.mpr ⟨hok, rfl⟩)⟩⟩, fun f t h hr => ?_⟩
  · rintro ⟨f, h⟩
    have hdec := responseOf_decode_eq_okFrame.mp (responseOf_of_exec h rfl)
    exact (decodeFrame_ok_iff.mp hdec).1
  · have hdec := responseOf_decode_eq_okFrame.mp (responseOf_of_exec h hr)
    exact (decodeFrame_eq_ok_iff.mp hdec).1

/-- Settles O28: `decodeFrame_eq_ok_iff`, read from right to left for the first law and from left to right for the
second; the operation issued next sees the same parameters. -/
theorem encodeAndDecodeRoundTrip : Obligations.EncodeAndDecodeRoundTrip := by
  constructor
  · intro a c d s hd
    exact ⟨_, _, exec_encode_of_ok (encodeFrame_of_fits s.params a c hd), rfl,
      exec_decode_of_ok (decodeFrame_frameBytes s.params a c hd)⟩
  · intro b f s t h hr
    have hdec := responseOf_decode_eq_okFrame.mp (responseOf_of_exec h hr)
    obtain ⟨hd, hb⟩ := decodeFrame_eq_ok_iff.mp hdec
    obtain rfl := exec_next h
    apply exec_encode_of_ok
    rw [respond_params, setBuf_params, encodeFrame_of_fits s.params f.address f.command hd, ← hb]

/-- Settles O32: the receiver compares the SUM that the sender laid out with its own checksum of the same fields. -/
theorem parametersDecideTheVerdict : Obligations.ParametersDecideTheVerdict :=
  fun a c _ s s' hd =>
    ⟨_, exec_encode_of_ok (encodeFrame_of_fits s.params a c hd), exec_decode_wire s' (length_byte hd)⟩

/-- Settles O41: with STX, the length and ETX as SCAN has found them, CR is the one structural check left. -/
theorem scanCandidatesFailOnlyOnCrOrSum : Obligations.ScanCandidatesFailOnlyOnCrOrSum := by
  intro p t hstx hlen hetx
  have hshape : shapeOk t = true ↔ byteAt t (6 + lenField t) = cr :=
    ⟨fun h => have ⟨_, _, _, _, hcr⟩ := shapeOk_iff.mp h; hcr,
      fun hcr => shapeOk_iff.mpr ⟨by omega, hstx, hlen, hetx, hcr⟩⟩
  change (_ ↔ byteAt t (6 + lenField t) ≠ cr) ∧ (_ ↔ byteAt t (6 + lenField t) = cr ∧
    frameSum p t ≠ byteAt t (5 + lenField t))
  simp only [decodeFrame_eq, hshape]
  by_cases hcr : byteAt t (6 + lenField t) = cr <;> by_cases hsum : frameSum p t = byteAt t (5 + lenField t) <;>
    simp [hcr, hsum]

/-! ### Counting valid frames -/

/-- Settles O29: the fields of a valid frame determine its bytes. -/
theorem eachTripleHasOneValidFrame : Obligations.EachTripleHasOneValidFrame := by
  intro p a c d hd
  refine ⟨frameBytes p a c d, frameBytes_fields p a c hd, ?_⟩
  rintro b ⟨hok, rfl, rfl, rfl⟩
  exact (eq_frameBytes_of_frameOk hok).2

theorem card_byte : Fintype.card Byte = 256 :=
  (Fintype.card_congr BitVec.equivFin.toEquiv).trans (Fintype.card_fin _)

/-- There are `256 ^ n` byte sequences of `n` bytes (R54). -/
theorem ncard_bytes_length_eq (n : Nat) : {d : List Byte | d.length = n}.ncard = 256 ^ n := by
  calc {d : List Byte | d.length = n}.ncard = Nat.card (List.Vector Byte n) := rfl
    _ = 256 ^ n := by rw [Nat.card_eq_fintype_card, card_vector, card_byte]

/-- There are as many byte sequences of fewer than `n` bytes as of each of these lengths together. -/
theorem ncard_bytes_length_lt (n : Nat) : {d : List Byte | d.length < n}.ncard = ∑ len ∈ Finset.range n, 256 ^ len := by
  induction n with
  | zero => simp
  | succ n ih =>
    have hsplit : {d : List Byte | d.length < n + 1} = {d | d.length < n} ∪ {d | d.length = n} := by
      ext d
      exact Nat.lt_succ_iff_lt_or_eq
    have hdisj : Disjoint {d : List Byte | d.length < n} {d | d.length = n} :=
      Set.disjoint_left.mpr fun d hlt heq => Nat.ne_of_lt hlt heq
    rw [hsplit, Set.ncard_union_eq hdisj (List.finite_length_lt Byte n) (List.finite_length_eq Byte n), ih,
      ncard_bytes_length_eq, Finset.sum_range_succ]

/-- The triples a frame can carry (R54): two bytes and at most 255 bytes of data. -/
def carriedTriples : Set ((Byte × Byte) × List Byte) := Set.univ ×ˢ {d | d.length < 256}

/-- The frame of a triple. -/
def frameOfTriple (p : CkParams) (t : (Byte × Byte) × List Byte) : List Byte := frameBytes p t.1.1 t.1.2 t.2

/-- The valid frames are the frames of the triples (R54). -/
theorem frameOk_eq_image (p : CkParams) : {b | frameOk p b = true} = frameOfTriple p '' carriedTriples := by
  ext b
  constructor
  · intro hok
    obtain ⟨hd, hb⟩ := eq_frameBytes_of_frameOk hok
    exact ⟨((byteAt b 1, byteAt b 2), dataField b), ⟨trivial, Nat.lt_succ_of_le hd⟩, hb.symm⟩
  · rintro ⟨⟨⟨a, c⟩, d⟩, ⟨-, hd⟩, rfl⟩
    exact (frameBytes_fields p a c (Nat.le_of_lt_succ hd)).1

/-- Different triples have different frames (R54): DECODE reads the triple back. -/
theorem frameOfTriple_injOn (p : CkParams) : Set.InjOn (frameOfTriple p) carriedTriples := by
  rintro ⟨⟨a, c⟩, d⟩ ⟨-, hd⟩ ⟨⟨a', c'⟩, d'⟩ ⟨-, hd'⟩ h
  have hdec := congrArg (decodeFrame p) h
  rw [frameOfTriple, frameOfTriple, decodeFrame_frameBytes p a c (Nat.le_of_lt_succ hd),
    decodeFrame_frameBytes p a' c' (Nat.le_of_lt_succ hd')] at hdec
  injection hdec with hf
  cases hf
  rfl

/-- Settles O30: valid frames are counted by the triples they carry. -/
theorem numberOfValidFrames : Obligations.NumberOfValidFrames := by
  intro p
  have hpair : (Set.univ : Set (Byte × Byte)).ncard = 256 * 256 := by
    rw [Set.ncard_univ, Nat.card_prod, Nat.card_eq_fintype_card, card_byte]
  rw [frameOk_eq_image, (frameOfTriple_injOn p).ncard_image, carriedTriples, Set.ncard_prod, hpair,
    ncard_bytes_length_lt]

/-! ### One flipped bit -/

theorem lenField_set {b : List Byte} {i : Nat} (x : Byte) (h : i ≠ 3) : lenField (b.set i x) = lenField b := by
  rw [lenField, byteAt_set_ne x h, lenField]

/-- The offsets of STX, LENGTH, ETX and CR (R36), the bytes that `shape_ok` reads. -/
def IsShapeOffset (b : List Byte) (i : Nat) : Prop := i = 0 ∨ i = 3 ∨ i = 4 + lenField b ∨ i = 6 + lenField b

/-- A shaped sequence is not shaped with another byte at one of these offsets (R79). -/
theorem not_shapeOk_set {b : List Byte} {i : Nat} {x : Byte} (h : shapeOk b = true) (hx : x ≠ byteAt b i)
    (hi : IsShapeOffset b i) : ¬ shapeOk (b.set i x) = true := by
  intro h'
  obtain ⟨h7, hstx, hlen, hetx, hcr⟩ := shapeOk_iff.mp h
  obtain ⟨-, hstx', hlen', hetx', hcr'⟩ := shapeOk_iff.mp h'
  simp only [frameLen, List.length_set] at hlen hlen'
  apply hx
  obtain rfl | rfl | rfl | rfl := hi
  · rw [hstx, ← hstx', byteAt_set_self x (by omega)]
  · apply BitVec.eq_of_toNat_eq
    simp only [lenField, byteAt_set_self x (show 3 < b.length by omega)] at hlen hlen'
    omega
  · rw [lenField_set x (by omega), byteAt_set_self x (by omega)] at hetx'
    rw [hetx', hetx]
  · rw [lenField_set x (by omega), byteAt_set_self x (by omega)] at hcr'
    rw [hcr', hcr]

/-- A shaped sequence is shaped whatever stands at the other offsets. -/
theorem shapeOk_set {b : List Byte} {i : Nat} (x : Byte) (h : shapeOk b = true) (hi : ¬ IsShapeOffset b i) :
    shapeOk (b.set i x) = true := by
  obtain ⟨h7, hstx, hlen, hetx, hcr⟩ := shapeOk_iff.mp h
  simp only [IsShapeOffset, not_or] at hi
  obtain ⟨h0, h3, hE, hC⟩ := hi
  rw [shapeOk_iff, List.length_set, frameLen, lenField_set x h3, byteAt_set_ne x h0, byteAt_set_ne x hE,
    byteAt_set_ne x hC]
  exact ⟨h7, hstx, hlen, hetx, hcr⟩

/-- The bytes from ADDRESS to DATA are those at the offsets 1 to 3 + L (R36). -/
theorem coveredBytes_eq_slice {b : List Byte} (h : 4 ≤ b.length) :
    coveredBytes (byteAt b 1) (byteAt b 2) (byteAt b 3) (dataField b) = slice b 1 (4 + lenField b) := by
  match b, h with
  | x₀ :: x₁ :: x₂ :: x₃ :: b, _ => simp [coveredBytes, dataField, slice, Nat.add_comm 4]

theorem byteAt_slice {s : List Byte} {i j k : Nat} (h : i + k < j) : byteAt (slice s i j) k = byteAt s (i + k) := by
  simp [byteAt, slice, h]

/-- Changing a byte of ADDRESS, COMMAND or DATA changes the checksum (R65, R79). -/
theorem frameSum_set_ne (p : CkParams) {b : List Byte} {i : Nat} {x : Byte} (hx : x ≠ byteAt b i) (h1 : 1 ≤ i)
    (h3 : i ≠ 3) (hi : i < 4 + lenField b) (hb : 4 + lenField b ≤ b.length) :
    frameSum p (b.set i x) ≠ frameSum p b := by
  have hset : slice (b.set i x) 1 (4 + lenField b) = (slice b 1 (4 + lenField b)).set (i - 1) x := by
    rw [slice, slice, List.take_set, List.drop_set, if_neg (by omega)]
  have hat : byteAt (slice b 1 (4 + lenField b)) (i - 1) = byteAt b i := by
    rw [byteAt_slice (by omega), Nat.add_sub_cancel' h1]
  rw [frameSum, frameSum, ne_eq, ck_window_eq_iff, coveredBytes_eq_slice (by rw [List.length_set]; omega),
    coveredBytes_eq_slice (by omega), lenField_set x h3, hset]
  exact ckFold_set_ne p.alg (by simp [slice]; omega) (by rwa [hat])

/-- SUM is no part of its own checksum (R50). -/
theorem frameSum_set_sum (p : CkParams) (b : List Byte) (x : Byte) :
    frameSum p (b.set (5 + lenField b) x) = frameSum p b := by
  have hlen : lenField (b.set (5 + lenField b) x) = lenField b := lenField_set x (by omega)
  have hdata : dataField (b.set (5 + lenField b) x) = dataField b := by
    rw [dataField, dataField, slice, slice, hlen, List.take_set, List.set_eq_of_length_le (by simp)]
  rw [frameSum, frameSum, hdata]
  simp only [byteAt_set_ne x (show 5 + lenField b ≠ 1 by omega), byteAt_set_ne x (show 5 + lenField b ≠ 2 by omega),
    byteAt_set_ne x (show 5 + lenField b ≠ 3 by omega)]

/-- DECODE of a valid frame with one byte changed (R79): at the offsets that `shape_ok` reads the structure fails, at
any other SUM and the checksum differ, since just one of the two has changed. -/
theorem decodeFrame_set {p : CkParams} {b : List Byte} {i : Nat} {x : Byte} (h : frameOk p b = true)
    (hi : i < b.length) (hx : x ≠ byteAt b i) :
    (IsShapeOffset b i → decodeFrame p (b.set i x) = .error .frameMalformed) ∧
    (¬ IsShapeOffset b i → decodeFrame p (b.set i x) = .error .checksumMismatch) := by
  obtain ⟨hshape, hsum⟩ := frameOk_iff.mp h
  refine ⟨fun hs => decodeFrame_of_not_shapeOk p (not_shapeOk_set hshape hx hs), fun hs => ?_⟩
  obtain ⟨-, -, hlen, -⟩ := shapeOk_iff.mp hshape
  simp only [frameLen] at hlen
  have hdiff : frameSum p (b.set i x) ≠ byteAt (b.set i x) (5 + lenField (b.set i x)) := by
    simp only [IsShapeOffset, not_or] at hs
    obtain ⟨h0, h3, hE, hC⟩ := hs
    rw [lenField_set x h3]
    by_cases hS : i = 5 + lenField b
    · subst hS
      rw [frameSum_set_sum, hsum, byteAt_set_self x hi]
      exact hx.symm
    · rw [byteAt_set_ne x hS, ← hsum]
      exact frameSum_set_ne p hx (by omega) h3 (by omega) (by omega)
  rw [decodeFrame_eq, if_pos (shapeOk_set x hshape hs), if_neg hdiff]

/-- Settles O31: a flipped bit makes another byte, and DECODE refuses the frame by the offset of that byte. -/
theorem singleBitCorruptionIsRefused : Obligations.SingleBitCorruptionIsRefused := by
  intro b i k s hok hi hk
  obtain ⟨hshape, hsum⟩ := decodeFrame_set hok hi (flipBit_ne (byteAt b i) hk)
  split_ifs with hs
  · exact exec_decode_of_error (hshape hs)
  · exact exec_decode_of_error (hsum hs)

end Sys2Proof.Machine
end

section
/-! PROOFS. The laws of the stream reassembler (spec file 42_stream_reassembler.md): what SCAN leaves (R83, R86), chunk
invariance (R87) and what SCAN does with a candidate at its head (R92 to R95). -/

namespace Sys2Proof.Machine

/-! ### The buffer at rest -/

/-- A buffer at rest (R23), in the terms of `scanPass`. -/
theorem restBuf_iff {buf : List Byte} :
    restBuf buf = true ↔ buf = [] ∨ (byteAt buf 0 = stx ∧ (buf.length < 4 ∨ buf.length < frameLen buf)) :=
  decide_eq_true_iff

@[simp] theorem restBuf_nil : restBuf [] = true := rfl

/-- When a pass waits, it leaves the bytes without their noise, and these are at rest (R82, R86). -/
theorem restBuf_of_wait {p : CkParams} {s s' : List Byte} (h : scanPass p s = .wait s') :
    s' = dropNoise s ∧ restBuf s' = true := by
  obtain ⟨hp, hrest⟩ | ⟨hp, -⟩ | ⟨hp, -⟩ := scanPass_cases p s <;> rw [hp] at h
  · cases h
    exact ⟨rfl, restBuf_iff.mpr hrest⟩
  · nomatch h
  · nomatch h

/-- SCAN leaves a buffer at rest, whatever it starts from (R86). -/
theorem restBuf_scan (p : CkParams) (s : List Byte) : restBuf (scan p s).1 = true := by
  induction s using scan_induction p with
  | wait s s' h => rw [scan_eq, h]; exact (restBuf_of_wait h).2
  | resync s s' h ih => rw [scan_eq, h]; exact ih
  | complete s e s' h ih => rw [scan_eq, h]; exact ih

/-- SCAN does nothing to a buffer at rest (R82). -/
theorem scan_of_restBuf (p : CkParams) {s : List Byte} (h : restBuf s = true) : scan p s = (s, []) := by
  have hlt := length_lt_frameLen_of_restBuf h
  have hnoise : dropNoise s = s := by
    obtain rfl | ⟨h0, -⟩ := restBuf_iff.mp h
    · rfl
    · exact dropNoise_of_stx h0
  have hpass : scanPass p s = .wait s := by
    rw [scanPass, hnoise, passOn]
    split_ifs <;> rfl
  rw [scan_eq, hpass]

/-- Each event of SCAN accounts for at least seven bytes that are not left (R83). -/
theorem scan_length_le (p : CkParams) (s : List Byte) : 7 * (scan p s).2.length + (scan p s).1.length ≤ s.length := by
  induction s using scan_induction p with
  | wait s s' h =>
    rw [scan_eq, h]
    obtain ⟨rfl, -⟩ := restBuf_of_wait h
    simpa using dropNoise_length_le s
  | resync s s' h ih =>
    rw [scan_eq, h]
    have := (scanPass_shorter p s).1 s' h
    exact ih.trans (Nat.le_of_lt this)
  | complete s e s' h ih =>
    rw [scan_eq, h]
    have := (scanPass_shorter p s).2 e s' h
    simp only [List.length_cons]
    omega

/-! ### Chunk invariance -/

/-- SCAN of a concatenation is SCAN of the first part and then of what that leaves with the second part (R87), by
induction over the passes of the first scan. -/
theorem scan_append (p : CkParams) (s u : List Byte) :
    scan p (s ++ u) = ((scan p ((scan p s).1 ++ u)).1, (scan p s).2 ++ (scan p ((scan p s).1 ++ u)).2) := by
  induction s using scan_induction p with
  | wait s s' h =>
    obtain ⟨rfl, -⟩ := restBuf_of_wait h
    rw [scan_eq p s, h]
    simp only [scan_dropNoise_append, List.nil_append]
  | resync s s' h ih =>
    rw [scan_eq p s, h, scan_eq, (scanPass_append p s u).1 s' h]
    exact ih
  | complete s e s' h ih =>
    rw [scan_eq p s, h, scan_eq, (scanPass_append p s u).2 e s' h]
    simp only [ih, List.cons_append]

/-! ### Noise and candidates at the head of the bytes -/

/-- Noise without an STX is dropped (R92). -/
theorem scan_noise_append (p : CkParams) {g : List Byte} (u : List Byte) (h : ∀ x ∈ g, x ≠ stx) :
    scan p (g ++ u) = scan p u := by
  induction g with
  | nil => rfl
  | cons x g ih =>
    rw [List.forall_mem_cons] at h
    rw [List.cons_append, scan_cons_of_ne_stx p _ h.1, ih h.2]

/-- A candidate without ETX in its place loses only its STX (R82, R93). -/
theorem scan_of_misaligned (p : CkParams) {s : List Byte} (h0 : byteAt s 0 = stx) (hlen : frameLen s ≤ s.length)
    (he : byteAt s (4 + lenField s) ≠ etx) : scan p s = scan p (s.drop 1) := by
  have h7 : 7 ≤ frameLen s := Nat.le_add_right 7 _
  rw [scan_eq p s, scanPass, dropNoise_of_stx h0, passOn, if_neg (by omega), if_neg (by omega), if_pos he]

/-- A candidate with ETX in its place is consumed whole, and DECODE's answer is reported (R82, R94). -/
theorem scan_candidate_append (p : CkParams) {cand : List Byte} (rest : List Byte) (h0 : byteAt cand 0 = stx)
    (hlen : cand.length = frameLen cand) (he : byteAt cand (4 + lenField cand) = etx) :
    scan p (cand ++ rest) = ((scan p rest).1, candidateEvent p cand :: (scan p rest).2) := by
  have h7 : 7 ≤ frameLen cand := Nat.le_add_right 7 _
  have hpass : scanPass p cand = .complete (candidateEvent p cand) [] := by
    rw [scanPass, dropNoise_of_stx h0, passOn, if_neg (by omega), if_neg (by omega), if_neg (not_not.mpr he), ← hlen,
      List.take_length, List.drop_length]
  rw [scan_eq, (scanPass_append p cand rest).2 _ _ hpass]
  rfl

/-- A valid frame is found and consumed (R82). -/
theorem scan_frame_append {p : CkParams} {b : List Byte} {f : Frame} (rest : List Byte) (h : decodeFrame p b = .ok f) :
    scan p (b ++ rest) = ((scan p rest).1, .frameOut f :: (scan p rest).2) := by
  obtain ⟨hshape, -⟩ := frameOk_iff.mp (decodeFrame_ok_iff.mp h).1
  obtain ⟨-, h0, hlen, he, -⟩ := shapeOk_iff.mp hshape
  have hevent : candidateEvent p b = .frameOut f := by rw [candidateEvent, h]
  rw [scan_candidate_append p rest h0 hlen he, hevent]

/-- A valid frame alone gives its Frame and leaves nothing (R95). -/
theorem scan_frame {p : CkParams} {b : List Byte} {f : Frame} (h : decodeFrame p b = .ok f) :
    scan p b = ([], [.frameOut f]) := by
  simpa using scan_frame_append [] h

/-! ### The statements about SCAN and single operations -/

/-- Settles O42: the statement of `scan_append`. -/
theorem scanIsChunkInvariant : Obligations.ScanIsChunkInvariant := scan_append

/-- Settles O36: a buffer at rest is shorter than its frame, of 7 + 255 bytes at most. -/
theorem bufferNeverOverflows : Obligations.BufferNeverOverflows := by
  intro buf x h
  have hlt := length_lt_frameLen_of_restBuf h
  have hfield := lenField_le buf
  rw [frameLen] at hlt
  exact ⟨restBuf_iff.mp h, by omega, by rw [List.length_append, List.length_singleton, bufCap]; omega, rfl⟩

/-- FEED_BYTE, CLOSE and RESET leave a buffer at rest, whatever they start from (R86). -/
theorem restBuf_bufAfter_of_touchesBuf {i : Instr} (s : State) (h : touchesBuf i = true) :
    restBuf (bufAfter i s) = true := by
  cases i with
  | feedByte x => exact restBuf_scan _ _
  | close => rfl
  | reset => rfl
  | _ => nomatch h

/-- Settles O38: SCAN leaves a buffer at rest, and so do CLOSE and RESET, an empty one. -/
theorem reassemblerOperationsLeaveTheBufferAtRest : Obligations.ReassemblerOperationsLeaveTheBufferAtRest :=
  fun i s h => ⟨_, exec_eq i s, restBuf_bufAfter_of_touchesBuf s h⟩

/-- Settles O39: the empty buffer is at rest and the response port shows nothing. -/
theorem instantiationIsAtRest : Obligations.InstantiationIsAtRest := fun _ => rfl

/-- Settles O40: the bound of SCAN, on the buffer with the byte fed. -/
theorem scanEventsAreBounded : Obligations.ScanEventsAreBounded := by
  intro x s
  refine ⟨_, _, exec_feedByte x s, rfl, ?_⟩
  simpa using scan_length_le s.params (s.buf ++ [x])

/-- Settles O47: after either of the two operations the buffer is empty, and then both answer alike. -/
theorem closeAndResetAreIdempotent : Obligations.CloseAndResetAreIdempotent :=
  fun s => ⟨_, _, exec_close s, exec_reset s, rfl, rfl, exec_close _, exec_reset _, exec_close _, exec_reset _⟩

/-- FEED_BYTE's answer, given what SCAN makes of the buffer with the byte fed (R85). -/
theorem exec_feedByte_of_scan {x : Byte} {s : State} {left : List Byte} {es : List Event}
    (h : scan s.params (s.buf ++ [x]) = (left, es)) :
    exec (.feedByte x) s = .next { s with buf := left, response := some (.events es) } := by
  rw [exec_feedByte, h]

/-- Settles O51: the resync drops the STX, the noise after it goes, and the frame is found. -/
theorem frameInsideMisalignedCandidateIsFound : Obligations.FrameInsideMisalignedCandidateIsFound := by
  intro g b rest f x s hbuf hlen he hg hdec
  apply exec_feedByte_of_scan
  have h0 : byteAt (s.buf ++ [x]) 0 = stx := by rw [hbuf]; rfl
  rw [scan_of_misaligned s.params h0 hlen he, hbuf, List.drop_succ_cons, List.drop_zero, List.append_assoc,
    scan_noise_append s.params _ hg, scan_frame_append rest hdec]

/-- Settles O52: the candidate is consumed whole, and its event is DECODE's error. -/
theorem rejectedCandidateConsumesItsBytes : Obligations.RejectedCandidateConsumesItsBytes := by
  intro cand rest e x s hbuf h0 hlen he hdec
  apply exec_feedByte_of_scan
  have hevent : candidateEvent s.params cand = .reject e := by rw [candidateEvent, hdec]
  rw [hbuf, scan_candidate_append s.params rest h0 hlen he, hevent]

/-- Settles O53: SCAN of a valid frame alone. -/
theorem frameIsEmittedByItsLastByte : Obligations.FrameIsEmittedByItsLastByte :=
  fun _ _ _ hdec => exec_feedByte_of_scan (scan_frame hdec)

end Sys2Proof.Machine
end

section
/-! PROOFS. Runs of requests (spec file 42_stream_reassembler.md sections 2 and 3; R59, R60, R88, R90, R92, R117). -/

namespace Sys2Proof.Machine

/-! ### What a run depends on -/

/-- The block of two states agrees: they have one buffer and one set of parameters (R20, R27). -/
def SameBlock (s s' : State) : Prop := s.buf = s'.buf ∧ s.params = s'.params

/-- Responses and buffers are read off the buffer and the parameters alone (R88). -/
theorem SameBlock.responseOf_eq {s s' : State} (h : SameBlock s s') (i : Instr) : responseOf i s = responseOf i s' := by
  obtain ⟨hbuf, hparams⟩ := h
  cases i <;> simp only [responseOf, hbuf, hparams]

theorem SameBlock.bufAfter_eq {s s' : State} (h : SameBlock s s') (i : Instr) : bufAfter i s = bufAfter i s' := by
  obtain ⟨hbuf, hparams⟩ := h
  cases i <;> simp only [bufAfter, hbuf, hparams]

theorem SameBlock.afterRequest {s s' : State} (h : SameBlock s s') (i : Instr) :
    SameBlock (afterRequest i s) (afterRequest i s') := ⟨h.bufAfter_eq i, h.2⟩

/-- Runs from states that agree on the block give the same responses and agree on the block again (R88). -/
theorem SameBlock.afterRequests {s s' : State} (h : SameBlock s s') (is : List Instr) :
    SameBlock (afterRequests is s).1 (afterRequests is s').1 ∧ (afterRequests is s).2 = (afterRequests is s').2 := by
  induction is generalizing s s' with
  | nil => exact ⟨h, rfl⟩
  | cons i is ih =>
    obtain ⟨hblock, hresps⟩ := ih (h.afterRequest i)
    exact ⟨hblock, congrArg₂ List.cons (h.responseOf_eq i) hresps⟩

/-- Settles O44: `SameBlock` is kept by every request, by induction on the requests. -/
theorem responsesDependOnBufferAndParametersOnly : Obligations.ResponsesDependOnBufferAndParametersOnly := by
  intro is s s' hbuf hparams
  obtain ⟨⟨hbuf', -⟩, hresps⟩ := SameBlock.afterRequests ⟨hbuf, hparams⟩ is
  exact ⟨_, _, _, runRequests_eq is s, by rw [runRequests_eq, hresps], hbuf'⟩

/-- The operations that neither read nor write the buffer keep it (R41). -/
theorem bufAfter_of_not_touchesBuf {i : Instr} (s : State) (h : ¬ touchesBuf i = true) : bufAfter i s = s.buf := by
  cases i with
  | feedByte x => exact absurd rfl h
  | close => exact absurd rfl h
  | reset => exact absurd rfl h
  | _ => rfl

/-- Those operations give no event (R30). -/
theorem eventList_of_not_touchesBuf {i : Instr} (s : State) (h : ¬ touchesBuf i = true) :
    (responseOf i s).eventList = [] := by
  cases i with
  | feedByte x => exact absurd rfl h
  | close => exact absurd rfl h
  | reset => exact absurd rfl h
  | encode a c d => rw [responseOf]; cases encodeFrame s.params a c d <;> rfl
  | decode b => rw [responseOf]; cases decodeFrame s.params b <;> rfl
  | _ => rfl

/-- The requests that do not touch the buffer can be left out of a run (R117). -/
theorem afterRequests_filter_touchesBuf {s s' : State} (h : SameBlock s s') (is : List Instr) :
    (afterRequests is s).1.buf = (afterRequests (is.filter touchesBuf) s').1.buf ∧
    eventsOf (afterRequests is s).2 = eventsOf (afterRequests (is.filter touchesBuf) s').2 := by
  induction is generalizing s s' with
  | nil => exact ⟨h.1, rfl⟩
  | cons i is ih =>
    by_cases ht : touchesBuf i = true
    · obtain ⟨hbuf, hevents⟩ := ih (h.afterRequest i)
      rw [List.filter_cons_of_pos ht]
      simp only [afterRequests, eventsOf_cons, hbuf, hevents, h.responseOf_eq i, and_self]
    · have hblock : SameBlock (afterRequest i s) s' := ⟨(bufAfter_of_not_touchesBuf s ht).trans h.1, h.2⟩
      rw [List.filter_cons_of_neg ht, afterRequests, eventsOf_cons, eventList_of_not_touchesBuf s ht]
      exact ih hblock

/-- Settles O45: `afterRequests_filter_touchesBuf`, from one state. -/
theorem pureOperationsMayBeInterleaved : Obligations.PureOperationsMayBeInterleaved := by
  intro is s
  obtain ⟨hbuf, hevents⟩ := afterRequests_filter_touchesBuf (s := s) ⟨rfl, rfl⟩ is
  exact ⟨_, _, _, _, runRequests_eq is s, runRequests_eq _ s, hbuf, hevents⟩

/-! ### FEED is one scan -/

/-- FEED from a buffer at rest leaves what one scan of all the bytes leaves and gives its events (R59, R87), by
induction on the bytes with chunk invariance. -/
theorem afterRequests_feed (u : List Byte) {s : State} (h : restBuf s.buf = true) :
    (afterRequests (feed u) s).1.buf = (scan s.params (s.buf ++ u)).1 ∧
    eventsOf (afterRequests (feed u) s).2 = (scan s.params (s.buf ++ u)).2 := by
  induction u generalizing s with
  | nil => rw [List.append_nil, scan_of_restBuf s.params h]; exact ⟨rfl, rfl⟩
  | cons x u ih =>
    have hchunk := scan_append s.params (s.buf ++ [x]) u
    rw [List.append_assoc, List.singleton_append] at hchunk
    obtain ⟨hbuf, hevents⟩ := ih (s := afterRequest (.feedByte x) s) (restBuf_scan _ _)
    rw [hchunk]
    exact ⟨hbuf, congrArg ((scan s.params (s.buf ++ [x])).2 ++ ·) hevents⟩

/-- FEED as a run, given what one scan makes of all the bytes (R59). -/
theorem runRequests_feed_of_scan {u left : List Byte} {es : List Event} {s : State} (h : restBuf s.buf = true)
    (hscan : scan s.params (s.buf ++ u) = (left, es)) :
    ∃ t rs, runRequests (feed u) s = .next (t, rs) ∧ t.buf = left ∧ eventsOf rs = es := by
  have hfeed := afterRequests_feed u h
  rw [hscan] at hfeed
  exact ⟨_, _, runRequests_eq (feed u) s, hfeed⟩

/-- FEED into an empty buffer, given what one scan makes of the bytes fed (R59). -/
theorem runRequests_feed_of_empty {u left : List Byte} {es : List Event} {s : State} (h : s.buf = [])
    (hscan : scan s.params u = (left, es)) :
    ∃ t rs, runRequests (feed u) s = .next (t, rs) ∧ t.buf = left ∧ eventsOf rs = es :=
  runRequests_feed_of_scan (by rw [h, restBuf_nil]) (by rwa [h, List.nil_append])

/-- Settles O43: FEED as a run, with the scan as it is. -/
theorem feedEqualsOneScan : Obligations.FeedEqualsOneScan := fun _ _ h => runRequests_feed_of_scan h rfl

/-- Every response of FEED is an event list (R85). -/
theorem feed_responses {u : List Byte} {s t : State} {rs : List Response}
    (h : runRequests (feed u) s = .next (t, rs)) : ∀ r ∈ rs, ∃ es, r = .events es := by
  rw [runRequests_eq] at h
  obtain rfl : (afterRequests (feed u) s).2 = rs := by injection h with h; rw [h]
  clear h
  induction u generalizing s with
  | nil => simp [feed, afterRequests]
  | cons x u ih => exact List.forall_mem_cons.mpr ⟨⟨_, rfl⟩, ih⟩

/-! ### Frames cut short, noise, and a frame looped back -/

/-- The first bytes of a shaped sequence are at rest until the last one has arrived (R90). -/
theorem restBuf_take_of_shapeOk {b : List Byte} {k : Nat} (h : shapeOk b = true) (hk : k < b.length) :
    restBuf (b.take k) = true := by
  obtain ⟨h7, h0, hlen, -⟩ := shapeOk_iff.mp h
  have hklen : (b.take k).length = k := List.length_take_of_le (Nat.le_of_lt hk)
  obtain rfl | hpos := Nat.eq_zero_or_pos k
  · rfl
  · refine restBuf_iff.mpr (.inr ⟨by rw [byteAt_take hpos, h0], ?_⟩)
    by_cases h4 : k < 4
    · exact .inl (by omega)
    · rw [hklen, frameLen, lenField, byteAt_take (by omega)]
      rw [frameLen, lenField] at hlen
      omega

/-- Settles O48: what has arrived of the frame is at rest, so the scan gives no event and no response holds one. -/
theorem truncatedFrameReportsIncomplete : Obligations.TruncatedFrameReportsIncomplete := by
  intro b k s hbuf hok hk
  have hrest := restBuf_take_of_shapeOk (frameOk_iff.mp hok).1 hk
  obtain ⟨t, rs, hrun, hleft, hevents⟩ := runRequests_feed_of_empty hbuf (scan_of_restBuf s.params hrest)
  refine ⟨t, rs, hrun, fun r hr => ?_, hleft, ?_⟩
  · obtain ⟨es, rfl⟩ := feed_responses hrun r hr
    exact congrArg Response.events (List.flatMap_eq_nil_iff.mp hevents _ hr)
  · rw [exec_close, hleft, List.length_take_of_le (Nat.le_of_lt hk)]
    rfl

/-- Settles O49: SCAN drops the noise and consumes the frame. -/
theorem noiseWithoutStxIsDropped : Obligations.NoiseWithoutStxIsDropped := by
  intro g b f s hbuf hg hdec
  have hscan := (scan_noise_append s.params b hg).trans (scan_frame hdec)
  obtain ⟨t, rs, hrun, hleft, hevents⟩ := runRequests_feed_of_empty hbuf hscan
  exact ⟨t, rs, hrun, hevents, hleft⟩

/-- Noise that reads as the first bytes of a frame of 262 bytes (R119). -/
def longestFrameHeader : List Byte := [0x02, 0x00, 0x00, 0xFF]

/-- Settles O50: the noise announces 262 bytes, and with the shortest frame after it only 11 have arrived. -/
theorem noiseWithStxCanHideAFrame : Obligations.NoiseWithStxCanHideAFrame := by
  intro s hbuf
  have hrest : restBuf (longestFrameHeader ++ frameBytes s.params 0 0 []) = true := by
    refine restBuf_iff.mpr (.inr ⟨rfl, .inr ?_⟩)
    rw [List.length_append, length_frameBytes, frameLen_append _ (by decide)]
    decide
  obtain ⟨t, rs, hrun, hleft, hevents⟩ := runRequests_feed_of_empty hbuf (scan_of_restBuf s.params hrest)
  have hok := (frameBytes_fields s.params 0 0 (d := []) (Nat.zero_le _)).1
  exact ⟨longestFrameHeader, _, t, rs, by decide, hok, hrun, hevents, hleft⟩

/-- Settles O54: ENCODE keeps the buffer and answers the frame's bytes, and FEED of them is one scan of a valid frame;
an ENCODE that refuses is the whole run. -/
theorem feedFrameLoopsBack : Obligations.FeedFrameLoopsBack := by
  refine fun a c d s => ⟨fun hbuf hd => ?_, fun hd => ?_⟩
  · have henc := encodeFrame_of_fits s.params a c hd
    obtain ⟨t, rs, hrun, hleft, hevents⟩ := runRequests_feed_of_empty
      (s := { s with response := some (.okBytes (frameBytes s.params a c d)) }) hbuf
      (scan_frame (decodeFrame_frameBytes s.params a c hd))
    refine ⟨t, frameBytes s.params a c d, rs, ?_, hevents, hleft⟩
    simp only [feedFrame, henc, runRequests, exec_encode_of_ok henc, hrun]
    rfl
  · have henc := encodeFrame_of_too_long s.params a c hd
    simp only [feedFrame, henc, runRequests, exec_encode_of_error henc]
    rfl

/-! ### The invariant between operations -/

/-- The event of a pass is DECODE's answer on a candidate (R82). -/
theorem event_of_complete {p : CkParams} {s s' : List Byte} {ev : Event} (h : scanPass p s = .complete ev s') :
    ∃ cand, ev = candidateEvent p cand := by
  obtain ⟨hp, -⟩ | ⟨hp, -⟩ | ⟨hp, -⟩ := scanPass_cases p s <;> rw [hp] at h
  · nomatch h
  · nomatch h
  · cases h
    exact ⟨_, rfl⟩

/-- Everything SCAN can report (R31, R82): a Frame that DECODE made, or a rejection. -/
theorem scan_events_cases {p : CkParams} {s : List Byte} {ev : Event} (h : ev ∈ (scan p s).2) :
    (∃ f, ev = .frameOut f ∧ f.wellFormed = true) ∨ ∃ e, ev = .reject e := by
  induction s using scan_induction p with
  | wait s s' hp => simp [scan_eq p s, hp] at h
  | resync s s' hp ih => rw [scan_eq, hp] at h; exact ih h
  | complete s ev' s' hp ih =>
    rw [scan_eq, hp] at h
    obtain rfl | h := List.mem_cons.mp h
    · obtain ⟨cand, rfl⟩ := event_of_complete hp
      obtain ⟨f, hdec, hev⟩ | ⟨e, -, hev⟩ := candidateEvent_cases p cand
      · exact .inl ⟨f, hev, decodeFrame_wellFormed hdec⟩
      · exact .inr ⟨e, hev⟩
    · exact ih h

/-- Every operation's response holds what R30 and R31 let it hold. -/
theorem responseOf_wellFormed (i : Instr) (s : State) : (responseOf i s).wellFormed = true := by
  cases i with
  | encode a c d =>
    rw [responseOf]
    obtain ⟨hd, henc⟩ | ⟨-, henc⟩ := encodeFrame_cases s.params a c d <;> rw [henc]
    · simp only [Response.wellFormed, length_frameBytes, decide_eq_true_eq]
      omega
    · rfl
  | decode b =>
    rw [responseOf]
    cases hdec : decodeFrame s.params b with
    | ok f => exact decodeFrame_wellFormed hdec
    | error e => rfl
  | feedByte x =>
    refine List.all_eq_true.mpr fun ev hev => ?_
    obtain ⟨f, rfl, hf⟩ | ⟨e, rfl⟩ := scan_events_cases hev
    · exact hf
    · rfl
  | close =>
    rw [responseOf]
    split_ifs with hpos
    · exact List.all_eq_true.mpr (List.forall_mem_singleton.mpr (decide_eq_true hpos))
    · rfl
  | _ => rfl

/-- Every operation keeps a buffer at rest: it leaves the buffer alone, or at rest whatever it was (R86). -/
theorem restBuf_bufAfter (i : Instr) {s : State} (h : restBuf s.buf = true) : restBuf (bufAfter i s) = true := by
  by_cases ht : touchesBuf i = true
  · exact restBuf_bufAfter_of_touchesBuf s ht
  · rwa [bufAfter_of_not_touchesBuf s ht]

theorem atRest_iff {s : State} : s.atRest = true ↔ restBuf s.buf = true ∧ s.response.all Response.wellFormed = true :=
  Bool.and_eq_true_iff

/-- Settles O37: an idle slot keeps the buffer and clears the response port, and an operation leaves a buffer at rest
and a well-formed response. -/
theorem everyStepKeepsTheRestInvariant : Obligations.EveryStepKeepsTheRestInvariant := by
  intro s t hs hstep
  obtain ⟨hrest, -⟩ := atRest_iff.mp hs
  obtain rfl | ⟨r, rest, i, -, -, rfl⟩ := step_next hstep
  · exact atRest_iff.mpr ⟨hrest, rfl⟩
  · exact atRest_iff.mpr ⟨restBuf_bufAfter i hrest, responseOf_wellFormed i _⟩

end Sys2Proof.Machine
end

section
/-! PROOFS. Responses, report codes and frames of the operations (R30, R41, R96, R97, R100; spec file 60_exceptions.md
section 1). -/

namespace Sys2Proof.Machine

/-! ### The kind of each response and the frame of each operation -/

/-- Settles O56, operation by operation, by what the bodies of ENCODE and DECODE can return. -/
theorem everyRequestGetsAResponseOfItsKind : Obligations.EveryRequestGetsAResponseOfItsKind := by
  intro i s
  refine ⟨_, _, exec_eq i s, rfl, ?_⟩
  cases i with
  | encode a c d =>
    rw [responseOf]
    obtain ⟨hd, henc⟩ | ⟨-, henc⟩ := encodeFrame_cases s.params a c d <;> rw [henc]
    · have hlen := length_frameBytes s.params a c d
      exact .inl ⟨_, rfl, by omega, by omega⟩
    · exact .inr rfl
  | decode b =>
    rw [responseOf]
    cases decodeFrame s.params b with
    | ok f => exact .inl ⟨f, rfl⟩
    | error e =>
      cases e with
      | frameMalformed => exact .inr (.inl rfl)
      | checksumMismatch => exact .inr (.inr rfl)
  | reserved => rfl
  | _ => exact ⟨_, rfl⟩

/-- Settles O59: an operation writes the buffer and the response port only, and the buffer as `bufAfter` says. -/
theorem onlyReassemblerOperationsWriteTheBuffer : Obligations.OnlyReassemblerOperationsWriteTheBuffer := by
  intro i s t h
  obtain rfl := exec_next h
  refine ⟨rfl, rfl, ?_, ?_⟩
  · rintro (⟨w, rfl⟩ | ⟨w, e, rfl⟩ | ⟨a, c, d, rfl⟩ | ⟨b, rfl⟩ | rfl) <;> rfl
  · rintro (rfl | rfl) <;> rfl

/-! ### Report codes -/

/-- The error codes are numbered one to one (R96), and no other response has the number of an error. -/
theorem toBits_code_eq_iff {r : Response} {e : Err} : r.code.toBits = e.code.toBits ↔ r = .err e := by
  cases r with
  | err e' => cases e' <;> cases e <;> decide
  | _ => cases e <;> simp [Response.code, Err.code, Code.toBits]

/-- The number 0 is every outcome without an error (R96; log entry 7 for event lists). -/
theorem toBits_code_eq_zero_iff {r : Response} : r.code.toBits = 0#3 ↔ ∀ e, r ≠ .err e := by
  cases r with
  | err e => cases e <;> simp [Response.code, Err.code, Code.toBits]
  | _ => simp [Response.code, Code.toBits]

/-- The numbers no response has: 4 is an event's alone, 6 and 7 are unused (R96). -/
theorem toBits_code_ne (r : Response) : r.code.toBits ≠ 4#3 ∧ r.code.toBits ≠ 6#3 ∧ r.code.toBits ≠ 7#3 := by
  cases r with
  | err e => cases e <;> decide
  | _ => simp [Response.code, Code.toBits]

/-- Why operation `i` answers error `e` in state `s` (R70, R74, R75, R56). -/
def ErrCause (i : Instr) (s : State) : Err → Prop
  | .payloadTooLarge => ∃ a c d, i = .encode a c d ∧ 255 < d.length
  | .frameMalformed => ∃ b, i = .decode b ∧ shapeOk b = false
  | .checksumMismatch => ∃ b, i = .decode b ∧ shapeOk b = true ∧ frameSum s.params b ≠ byteAt b (5 + lenField b)
  | .illegalOp => i = .reserved

/-- An operation answers an error exactly when there is cause for it (R96). -/
theorem responseOf_eq_err_iff {i : Instr} {s : State} {e : Err} : responseOf i s = .err e ↔ ErrCause i s e := by
  cases i with
  | encode a c d =>
    rw [responseOf]
    obtain ⟨hd, henc⟩ | ⟨hd, henc⟩ := encodeFrame_cases s.params a c d <;> rw [henc]
    · cases e <;> simp [ErrCause, hd]
    · cases e <;> simp [ErrCause, hd]
  | decode b =>
    rw [responseOf, decodeFrame_eq]
    by_cases hshape : shapeOk b = true
    · by_cases hsum : frameSum s.params b = byteAt b (5 + lenField b)
      · cases e <;> simp [ErrCause, hshape, hsum]
      · cases e <;> simp [ErrCause, CodecError.toErr, hshape, hsum]
    · cases e <;> simp [ErrCause, CodecError.toErr, hshape]
  | _ => cases e <;> simp [responseOf, ErrCause]

/-- A response has an error's number exactly when there is cause for that error (R96). -/
theorem toBits_code_responseOf_eq_iff {i : Instr} {s : State} {e : Err} :
    (responseOf i s).code.toBits = e.code.toBits ↔ ErrCause i s e := toBits_code_eq_iff.trans responseOf_eq_err_iff

/-- Everything an operation can report as an event (R31): FEED_BYTE Frames and rejections, CLOSE the number of bytes
pending. -/
theorem event_cases {i : Instr} {s : State} {ev : Event} (h : ev ∈ (responseOf i s).eventList) :
    (∃ x f, i = .feedByte x ∧ ev = .frameOut f) ∨ (∃ x e, i = .feedByte x ∧ ev = .reject e) ∨
    (i = .close ∧ ev = .incomplete s.buf.length ∧ 1 ≤ s.buf.length) := by
  by_cases ht : touchesBuf i = true
  · cases i with
    | feedByte x =>
      obtain ⟨f, hev, -⟩ | ⟨e, hev⟩ := scan_events_cases h
      · exact .inl ⟨x, f, rfl, hev⟩
      · exact .inr (.inl ⟨x, e, rfl, hev⟩)
    | close =>
      rw [responseOf] at h
      split_ifs at h with hpos
      · exact .inr (.inr ⟨rfl, List.mem_singleton.mp h, hpos⟩)
      · nomatch h
    | reset => nomatch h
    | _ => nomatch ht
  · rw [eventList_of_not_touchesBuf s ht] at h
    nomatch h

/-- Settles O57: each error's number by the cause of the error, and the events by the operation they come from. -/
theorem reportCodesAreAsTabled : Obligations.ReportCodesAreAsTabled := by
  intro i s
  have hcause (e : Err) := toBits_code_responseOf_eq_iff (i := i) (s := s) (e := e)
  refine ⟨_, _, exec_eq i s, rfl, toBits_code_eq_zero_iff, hcause .payloadTooLarge, hcause .frameMalformed,
    hcause .checksumMismatch, hcause .illegalOp, toBits_code_ne _, fun ev hev => ?_⟩
  obtain ⟨x, f, rfl, rfl⟩ | ⟨x, e, rfl, rfl⟩ | ⟨rfl, rfl, hpos⟩ := event_cases hev
  · simp [Event.code, Code.toBits]
  · cases e <;> simp [Event.code, Code.toBits, CodecError.toErr, Err.code]
  · refine ⟨nofun, nofun, fun n hn => ?_, nofun, nofun⟩
    injection hn with hn
    exact ⟨rfl, hn.symm, hn ▸ hpos, rfl⟩

end Sys2Proof.Machine
end

section
/-! PROOFS. The text of programs (spec file 30_encoding.md section 3, R58; log entry 9): a request written as a line
reads back. -/

namespace Sys2Proof.Machine

/-! ### Lists of bytes -/

/-- The tokens of a list of bytes after its first byte. -/
def tailTokens : List Byte → List Token
  | [] => [.rbracket]
  | x :: xs => .comma :: .word (showByte x) :: tailTokens xs

/-- The tokens of a list of bytes. -/
def listTokens : List Byte → List Token
  | [] => [.lbracket, .rbracket]
  | x :: xs => .lbracket :: .word (showByte x) :: tailTokens xs

@[simp] theorem flushWord_nil : flushWord [] = [] := rfl

/-- The bytes of a list after its first, as they are written, are cut into their tokens. -/
theorem tokenize_showTail (acc : List Char) (xs : List Byte) (cs : List Char) :
    tokenize acc (showTail xs ++ cs) = flushWord acc ++ (tailTokens xs ++ tokenize [] cs) := by
  induction xs generalizing acc with
  | nil => exact tokenize_rbracket acc cs
  | cons x xs ih =>
    rw [showTail, List.cons_append, List.cons_append, List.append_assoc, tokenize_comma, tokenize_space,
      tokenize_word _ _ _ (showByte_wordChars x), List.nil_append, ih]
    rfl

/-- A list as it is written is cut into its tokens. -/
theorem tokenize_showSeq (w : List Byte) (cs : List Char) :
    tokenize [] (showSeq w ++ cs) = listTokens w ++ tokenize [] cs := by
  cases w with
  | nil => rfl
  | cons x xs =>
    rw [showSeq, List.cons_append, List.append_assoc, tokenize_lbracket, tokenize_word _ _ _ (showByte_wordChars x),
      List.nil_append, tokenize_showTail]
    rfl

theorem seqTail_tailTokens (xs : List Byte) (ts : List Token) : seqTail (tailTokens xs ++ ts) = some (xs, ts) := by
  induction xs with
  | nil => rfl
  | cons x xs ih => simp only [tailTokens, List.cons_append, seqTail, hexByte_showByte, ih]

/-- The tokens of a list read as that list. -/
theorem seqTokens_listTokens (w : List Byte) (ts : List Token) : seqTokens (listTokens w ++ ts) = some (w, ts) := by
  cases w with
  | nil => rfl
  | cons x xs => simp only [listTokens, List.cons_append, seqTokens, hexByte_showByte, seqTail_tailTokens]

/-! ### Operands -/

/-- A byte outside a list, at the end of the line or before a comma. -/
theorem tokenize_showScalar (x : Byte) : tokenize [] (showScalar x) = [.word (showScalar x)] := by
  have h := tokenize_word _ [] [] (showScalar_wordChars x)
  rwa [List.append_nil] at h

theorem tokenize_showScalar_comma (x : Byte) (cs : List Char) :
    tokenize [] (showScalar x ++ ',' :: ' ' :: cs) = .word (showScalar x) :: .comma :: tokenize [] cs := by
  rw [tokenize_word _ _ _ (showScalar_wordChars x), List.nil_append, tokenize_comma, tokenize_space]
  rfl

/-- The operand of CK_COMPUTE and DECODE reads back. -/
theorem seqOnly_tokenize (w : List Byte) : seqOnly (tokenize [] (showSeq w)) = some w := by
  have h := tokenize_showSeq w []
  rw [List.append_nil] at h
  rw [h, seqOnly, seqTokens_listTokens]
  rfl

/-- The operands of CK_VERIFY read back. -/
theorem seqThenByte_tokenize (w : List Byte) (e : Byte) :
    seqThenByte (tokenize [] (showSeq w ++ ',' :: ' ' :: showScalar e)) = some (w, e) := by
  rw [tokenize_showSeq, tokenize_comma, tokenize_space, tokenize_showScalar, seqThenByte, seqTokens_listTokens]
  simp only [flushWord_nil, List.nil_append, hexByte_showScalar, Option.map_some]

/-- The operands of ENCODE read back. -/
theorem twoBytesThenSeq_tokenize (a c : Byte) (d : List Byte) :
    twoBytesThenSeq (tokenize [] (showScalar a ++ ',' :: ' ' :: (showScalar c ++ ',' :: ' ' :: showSeq d))) =
      some (a, c, d) := by
  rw [tokenize_showScalar_comma, tokenize_showScalar_comma]
  simp only [twoBytesThenSeq, hexByte_showScalar, seqOnly_tokenize]

/-- The operand of FEED_BYTE reads back. -/
theorem byteOnly_tokenize (x : Byte) : byteOnly (tokenize [] (showScalar x)) = some x := by
  rw [tokenize_showScalar, byteOnly, hexByte_showScalar]

/-! ### Lines -/

/-- A line of a mnemonic and operands is read as the mnemonic's tokens and the operands'. -/
theorem parseLine_word_space {m : List Char} (cs : List Char) (hm : m.all wordChar = true) (hne : m ≠ []) :
    parseLine (m ++ ' ' :: cs) = parseTokens (.word m :: tokenize [] cs) := by
  rw [parseLine, tokenize_word _ _ _ hm, List.nil_append, tokenize_space, flushWord, if_neg hne]
  rfl

/-- Settles O15: the mnemonic is one word, which picks the reader of the operands, and that reads them back. -/
theorem programLinesReadBackAsWritten : Obligations.ProgramLinesReadBackAsWritten := by
  intro i cs h
  cases i with
  | ckCompute w =>
    cases h
    rw [parseLine_word_space _ (by decide) (by decide)]
    simp [parseTokens, seqOnly_tokenize]
  | ckVerify w e =>
    cases h
    rw [parseLine_word_space _ (by decide) (by decide)]
    simp [parseTokens, seqThenByte_tokenize]
  | encode a c d =>
    cases h
    rw [parseLine_word_space _ (by decide) (by decide)]
    simp [parseTokens, twoBytesThenSeq_tokenize]
  | decode b =>
    cases h
    rw [parseLine_word_space _ (by decide) (by decide)]
    simp [parseTokens, seqOnly_tokenize]
  | feedByte x =>
    cases h
    rw [parseLine_word_space _ (by decide) (by decide)]
    simp [parseTokens, byteOnly_tokenize]
  | close => cases h; decide
  | reset => cases h; decide
  | reserved => nomatch h

end Sys2Proof.Machine
end
